-- ==== Sys2Proof/Word.lean ====
section
/-! DEFINITION. The one word type of the LS-8 CORE: the unsigned byte (spec 00_scope.md R9). -/

namespace Sys2Proof

/-- A register, a memory byte, an operand byte, an address or the program counter: an unsigned value
in [0,255] (00_scope.md R9). -/
abbrev Byte := BitVec 8

end Sys2Proof
end

