-- ==== Sys2Proof/Machine/State.lean ====
section
/-! DEFINITION. The state of the LS-8 CORE as plain data: the tuple of spec 10_state.md, and the state after reset (R40). -/

namespace Sys2Proof.Machine

/-- The flags register: three booleans (10_state.md R28). -/
structure Flags where
  /-- FL.E -/
  equal : Bool
  /-- FL.G -/
  greater : Bool
  /-- FL.L -/
  less : Bool
  deriving DecidableEq, Repr

/-- The loop's state (10_state.md R34). -/
inductive Status
  | running | halted | faulted
  deriving DecidableEq, Repr

/-- The fault kinds (10_state.md R35, 60_exceptions.md R180). -/
inductive FaultKind
  /-- UNKNOWN_OPCODE, raised by the loop. -/
  | unknownOpcode
  /-- DIVIDE_BY_ZERO, raised by DIV and MOD. -/
  | divideByZero
  /-- BAD_REGISTER, raised by any handler with a register operand. -/
  | badRegister
  deriving DecidableEq, Repr

/-- What a fault records (10_state.md R35). -/
structure FaultRecord where
  kind : FaultKind
  /-- The address of the faulting instruction's opcode. -/
  pc : Byte
  /-- That opcode byte. -/
  opcode : Byte
  /-- The offending operand byte for BAD_REGISTER, 0 otherwise. -/
  info : Byte
  deriving DecidableEq, Repr

/-- One event of the output channel (10_state.md R36). -/
inductive OutEvent
  /-- Written by PRN. -/
  | dec (v : Byte)
  /-- Written by PRA. -/
  | char (v : Byte)
  deriving DecidableEq, Repr

/-- Memory as (address, byte) pairs in one canonical form (Memory.wf); an address not listed reads as `unlistedByte`. -/
abbrev Memory := List Host.Cell

/-- What an unlisted address reads as: every byte is 0 after reset (10_state.md R33). -/
def unlistedByte : Byte := 0

/-- The canonical form: addresses strictly rising, none above 255 (10_state.md R33), no entry equal to what an unlisted address
reads as. -/
abbrev Memory.wf (m : Memory) : Prop :=
  m.Pairwise (fun e f => e.1 < f.1) ∧ ∀ e ∈ m, e.1 < 256 ∧ e.2 ≠ unlistedByte

/-- The whole state of the block (10_state.md, the tuple before R20). -/
structure State where
  /-- The register file x[0..7] (R20). -/
  x : Vector Byte 8
  /-- The program counter (R24). -/
  pc : Byte
  /-- The flags register FL (R28). -/
  fl : Flags
  /-- The memory array M (R33). -/
  mem : Memory
  /-- Running, Halted or Faulted (R34). -/
  status : Status
  /-- The fault record, present only when status is Faulted (R35). -/
  fault : Option FaultRecord
  /-- The output channel, oldest event first (R36). -/
  out : List OutEvent
  deriving DecidableEq, Repr

/-- Reasons for the outcome `fault`: none. Every fault of this hardware is a state, with status Faulted and a record, and not a stop
of the model (00_scope.md R12, 60_exceptions.md R182), so no meaning raises one. Safe: there is nothing to raise. Log entry 4. -/
inductive Fault
  deriving DecidableEq, Repr

/-- Reasons for the outcome `refused`. -/
inductive Refusal
  /-- Raised by an arm of `exec` whose instruction has no meaning yet; no arm raises it in this model. Safe: the model stops. -/
  | notModelled (mnemonic : String)
  deriving DecidableEq, Repr

/-- The state after reset (10_state.md R40): every field at the value the spec states. -/
def State.reset : State where
  x := Vector.replicate 8 0
  pc := 0
  fl := ⟨false, false, false⟩
  mem := []
  status := .running
  fault := none
  out := []

end Sys2Proof.Machine
end

