-- ==== Sys2Proof/Syntax.lean ====
section
/-! DEFINITION. Instructions as a program means them: one constructor per row of spec/opcode_table.json, each with its operand
bytes (spec 30_encoding.md R74, R77). A register operand is a whole byte: the handler, not the decoder, turns it into a register
index (R75, R80). -/

namespace Sys2Proof

/-- The 30 rows of the opcode table by name alone (30_encoding.md R77). -/
inductive Mnemonic
  | nop | hlt | ldi | ld | st | prn | pra
  | add | addi | inc | sub | subi | dec | mul | div | mod
  | shl | shr | and | or | xor | not
  | cmp | jmp | jeq | jne | jlt | jle | jgt | jge
  deriving DecidableEq, Repr

/-- An instruction with its operand bytes, in encoding order (op1, then op2). -/
inductive Instr
  /-- NOP: no operation (R110). -/
  | nop
  /-- HLT: halt (R111). -/
  | hlt
  /-- LDI Rr, v: load immediate (R112). -/
  | ldi (r v : Byte)
  /-- LD RA, RB: load register A from the address in register B (R113). -/
  | ld (a b : Byte)
  /-- ST RA, RB: store register B at the address in register A (R114). -/
  | st (a b : Byte)
  /-- PRN Rr: print in decimal (R120). -/
  | prn (r : Byte)
  /-- PRA Rr: print as a character (R121). -/
  | pra (r : Byte)
  /-- ADD RA, RB (R130). -/
  | add (a b : Byte)
  /-- ADDI Rr, v (R131). -/
  | addi (r v : Byte)
  /-- INC Rr (R132). -/
  | inc (r : Byte)
  /-- SUB RA, RB (R133). -/
  | sub (a b : Byte)
  /-- SUBI Rr, v (R134). -/
  | subi (r v : Byte)
  /-- DEC Rr (R135). -/
  | dec (r : Byte)
  /-- MUL RA, RB (R136). -/
  | mul (a b : Byte)
  /-- DIV RA, RB (R137). -/
  | div (a b : Byte)
  /-- MOD RA, RB (R138). -/
  | mod (a b : Byte)
  /-- SHL RA, RB (R150). -/
  | shl (a b : Byte)
  /-- SHR RA, RB (R151). -/
  | shr (a b : Byte)
  /-- AND RA, RB (R152). -/
  | and (a b : Byte)
  /-- OR RA, RB (R153). -/
  | or (a b : Byte)
  /-- XOR RA, RB (R154). -/
  | xor (a b : Byte)
  /-- NOT Rr (R155). -/
  | not (r : Byte)
  /-- CMP RA, RB: compare, the only writer of the flags (R160). -/
  | cmp (a b : Byte)
  /-- JMP Rr (R161). -/
  | jmp (r : Byte)
  /-- JEQ Rr (R162). -/
  | jeq (r : Byte)
  /-- JNE Rr (R163). -/
  | jne (r : Byte)
  /-- JLT Rr (R164). -/
  | jlt (r : Byte)
  /-- JLE Rr (R165). -/
  | jle (r : Byte)
  /-- JGT Rr (R166). -/
  | jgt (r : Byte)
  /-- JGE Rr (R167). -/
  | jge (r : Byte)
  deriving DecidableEq, Repr

/-- The row of the opcode table an instruction belongs to. -/
def Instr.mnemonic : Instr → Mnemonic
  | .nop => .nop
  | .hlt => .hlt
  | .ldi _ _ => .ldi
  | .ld _ _ => .ld
  | .st _ _ => .st
  | .prn _ => .prn
  | .pra _ => .pra
  | .add _ _ => .add
  | .addi _ _ => .addi
  | .inc _ => .inc
  | .sub _ _ => .sub
  | .subi _ _ => .subi
  | .dec _ => .dec
  | .mul _ _ => .mul
  | .div _ _ => .div
  | .mod _ _ => .mod
  | .shl _ _ => .shl
  | .shr _ _ => .shr
  | .and _ _ => .and
  | .or _ _ => .or
  | .xor _ _ => .xor
  | .not _ => .not
  | .cmp _ _ => .cmp
  | .jmp _ => .jmp
  | .jeq _ => .jeq
  | .jne _ => .jne
  | .jlt _ => .jlt
  | .jle _ => .jle
  | .jgt _ => .jgt
  | .jge _ => .jge

end Sys2Proof
end

