-- ==== Sys2Proof/Config.lean ====
section
/-! DEFINITION. What an implementation fixes (spec 00_scope.md R6, R7): the parameters as one record, and the values the spec
leaves OPEN as constants with no body, so that a proof holds for every choice of them. The parameters' default values stand in
Decode.lean (Config.standard). -/

namespace Sys2Proof

/-- REG_INDEX_POLICY (00_scope.md R6, R11): what a register operand byte of 8 or more does. -/
inductive RegIndexPolicy
  /-- The default: it raises the fault BAD_REGISTER. -/
  | fault
  /-- It names the register of its low three bits. -/
  | low3
  deriving DecidableEq, Repr

/-- LOADER_WIDE_LITERAL (00_scope.md R6, 70_reset_and_hazards.md R204): what the text loader, outside the core, does with a
literal of 256 or more. -/
inductive WideLiteral
  | skip
  | reject
  deriving DecidableEq, Repr, Inhabited

/-- OPCODE_TABLE with OPC_ADDI and OPC_SUBI in it: the code of each mnemonic (00_scope.md R7). Fixed configuration, not state. -/
abbrev OpcodeTable := Mnemonic → Byte

/-- The parameters of one machine (00_scope.md R6). The handlers and the configured step take them as an argument. -/
structure Config where
  /-- OPCODE_TABLE. -/
  table : OpcodeTable
  /-- REG_INDEX_POLICY. -/
  regIndexPolicy : RegIndexPolicy
  /-- LOADER_WIDE_LITERAL. -/
  wideLiteral : WideLiteral
  /-- DEFAULT_PROGRAM. -/
  defaultProgram : List Byte

/-- Free value: which of the 18 codes the default table leaves is OPC_ADDI (30_encoding.md R77, D3). Log entry 2. -/
opaque Config.addiChoice : Fin 18

/-- Free value: which of the 17 codes then left is OPC_SUBI (30_encoding.md R77, D3). Log entry 2. -/
opaque Config.subiChoice : Fin 17

/-- Free value: LOADER_WIDE_LITERAL, which the spec leaves open (D22). Log entry 14. -/
opaque Config.wideLiteralChoice : WideLiteral

/-- Free value: what memory holds, written from address 0 on, after a load of these bytes was refused; any value
(70_reset_and_hazards.md R202, 93_implementation_defined.md). Log entry 13. -/
opaque Config.refusedLoadLeaves : List Byte → List Byte

/-- Free value: what the port `fault_pc` carries in a state with no fault, where the spec gives it none (70_reset_and_hazards.md
R207). Log entry 12. -/
opaque Config.idleFaultPc : Machine.State → Byte

/-- Free value: as `Config.idleFaultPc`, for the port `fault_opcode`. Log entry 12. -/
opaque Config.idleFaultOpcode : Machine.State → Byte

end Sys2Proof
end

