-- ==== Sys2Proof/WellFormed.lean ====
section
/-! DEFINITION. When an instruction is well formed: every register operand names one of R0 to R7 (spec 30_encoding.md R81,
10_state.md R20). An ill-formed instruction still encodes and decodes (R80) and runs: its handler raises BAD_REGISTER or takes the
low three bits, as REG_INDEX_POLICY says (00_scope.md R11). -/

namespace Sys2Proof

/-- The register operand bytes of an instruction, op1 before op2; an immediate is none (30_encoding.md R74). -/
def Instr.registerOperands : Instr → List Byte
  | .nop => []
  | .hlt => []
  | .ldi r _ => [r]
  | .ld a b => [a, b]
  | .st a b => [a, b]
  | .prn r => [r]
  | .pra r => [r]
  | .add a b => [a, b]
  | .addi r _ => [r]
  | .inc r => [r]
  | .sub a b => [a, b]
  | .subi r _ => [r]
  | .dec r => [r]
  | .mul a b => [a, b]
  | .div a b => [a, b]
  | .mod a b => [a, b]
  | .shl a b => [a, b]
  | .shr a b => [a, b]
  | .and a b => [a, b]
  | .or a b => [a, b]
  | .xor a b => [a, b]
  | .not r => [r]
  | .cmp a b => [a, b]
  | .jmp r => [r]
  | .jeq r => [r]
  | .jne r => [r]
  | .jlt r => [r]
  | .jle r => [r]
  | .jgt r => [r]
  | .jge r => [r]

/-- Every register operand is in 0..7. -/
def Instr.wellFormed (i : Instr) : Bool :=
  i.registerOperands.all fun b => decide (b.toNat < 8)

end Sys2Proof
end

