-- ==== Sys2Proof/Decode.lean ====
section
/-! DEFINITION. The opcode decoder and the encoder, both from spec 30_encoding.md: the fields of the opcode byte (R71 to R73), the
formats (R74), the constraints a table must meet (R76), the default table (R77), resolve (R78), decoding that is total on any bytes
and refuses by name (R79, R80), and encoding. -/

namespace Sys2Proof

/-! ### The opcode byte -/

/-- The operand count, `op[7:6]` (R72). -/
def operandCount (op : Byte) : Nat := (op >>> 6).toNat

/-- The sets-PC bit, `(op & 0x10) != 0` (R73). -/
def setsPC (op : Byte) : Bool := (op &&& 0x10#8) != 0#8

/-! ### Formats -/

/-- The four formats of R74. -/
inductive Format
  | F0 | F1R | F2RR | F2RI
  deriving DecidableEq, Repr

/-- The format of each mnemonic (R74). -/
def Mnemonic.format : Mnemonic → Format
  | .nop | .hlt => .F0
  | .prn | .pra | .inc | .dec | .not | .jmp | .jeq | .jne | .jlt | .jle | .jgt | .jge => .F1R
  | .ld | .st | .add | .sub | .mul | .div | .mod | .shl | .shr | .and | .or | .xor | .cmp => .F2RR
  | .ldi | .addi | .subi => .F2RI

/-- Operand bytes of a format (R74). -/
def Format.operands : Format → Nat
  | .F0 => 0
  | .F1R => 1
  | .F2RR => 2
  | .F2RI => 2

/-- The seven jumps (R76): the instructions whose handler writes `pc`. -/
def Mnemonic.isJump : Mnemonic → Bool
  | .jmp | .jeq | .jne | .jlt | .jle | .jgt | .jge => true
  | .nop | .hlt | .ldi | .ld | .st | .prn | .pra | .add | .addi | .inc | .sub | .subi | .dec | .mul | .div | .mod
  | .shl | .shr | .and | .or | .xor | .not | .cmp => false

/-- All mnemonics. ADDI and SUBI stand last: their codes are open, and a search meets the known codes first. -/
def Mnemonic.all : List Mnemonic :=
  [.nop, .hlt, .ldi, .ld, .st, .prn, .pra, .add, .inc, .sub, .dec, .mul, .div, .mod] ++
  [.shl, .shr, .and, .or, .xor, .not, .cmp, .jmp, .jeq, .jne, .jlt, .jle, .jgt, .jge] ++ [.addi, .subi]

/-! ### The opcode table -/

/-- R76 for one code: bits 7-6 are the operand count, and bit 4 is 1 exactly for a jump; HLT's bit 4 is free (C1). -/
def Mnemonic.admits (m : Mnemonic) (op : Byte) : Bool :=
  operandCount op == m.format.operands && (m == .hlt || setsPC op == m.isJump)

/-- A table of this hardware (R76): every code meets its constraint and all codes are distinct. -/
abbrev OpcodeTable.Legal (t : OpcodeTable) : Prop :=
  (∀ m ∈ Mnemonic.all, m.admits (t m) = true) ∧ (Mnemonic.all.map t).Nodup

/-- The codes of the form 10?0???? that the default table leaves for ADDI and SUBI (R77). -/
def openCodes : List Byte :=
  [0x80, 0x81, 0x85, 0x86, 0x87, 0x88, 0x89, 0x8A, 0x8B, 0x8C, 0x8D, 0x8E, 0x8F, 0xA5, 0xA6, 0xA9, 0xAE, 0xAF]

/-- The i-th open code. -/
def addiCode (i : Fin 18) : Byte := openCodes.getD i.val 0x80

/-- The j-th open code that is not ADDI's. -/
def subiCode (i : Fin 18) (j : Fin 17) : Byte := (openCodes.eraseIdx i.val).getD j.val 0x81

/-- The LS-8 codes of R77, with the two open codes as arguments. -/
def defaultTableWith (opcAddi opcSubi : Byte) : OpcodeTable
  | .nop => 0x00
  | .hlt => 0x01
  | .ldi => 0x82
  | .ld => 0x83
  | .st => 0x84
  | .prn => 0x47
  | .pra => 0x48
  | .add => 0xA0
  | .addi => opcAddi
  | .inc => 0x65
  | .sub => 0xA1
  | .subi => opcSubi
  | .dec => 0x66
  | .mul => 0xA2
  | .div => 0xA3
  | .mod => 0xA4
  | .shl => 0xAC
  | .shr => 0xAD
  | .and => 0xA8
  | .or => 0xAA
  | .xor => 0xAB
  | .not => 0x69
  | .cmp => 0xA7
  | .jmp => 0x54
  | .jeq => 0x55
  | .jne => 0x56
  | .jlt => 0x58
  | .jle => 0x59
  | .jgt => 0x57
  | .jge => 0x5A

/-- OPC_ADDI: open (R77, D3). -/
def opcAddi : Byte := addiCode Config.addiChoice

/-- OPC_SUBI: open (R77, D3). -/
def opcSubi : Byte := subiCode Config.addiChoice Config.subiChoice

/-- OPCODE_TABLE at its default (R77; PRESUMED, log entry 1), with the open codes in it. -/
def defaultTable : OpcodeTable := defaultTableWith opcAddi opcSubi

/-- The parameters at the defaults of 00_scope.md R6: the machine that `exec`, `step` and `core` are. -/
def Config.standard : Config where
  table := defaultTable
  regIndexPolicy := .fault
  wideLiteral := Config.wideLiteralChoice
  defaultProgram := [0x82, 0x00, 0x08, 0x47, 0x00, 0x01]

/-- `resolve(op)`: the mnemonic whose code is `op`, or none for "unknown" (R78). It looks at R76's shape of the byte before it
compares codes, which changes nothing for a table that meets R76 (log entry 3). -/
def resolve (t : OpcodeTable) (op : Byte) : Option Mnemonic :=
  Mnemonic.all.find? fun m => m.admits op && t m == op

/-! ### Decoding -/

/-- The instruction of a mnemonic with its operand bytes, as many as its format has (R74). -/
def Mnemonic.instr (m : Mnemonic) (op1 op2 : Byte) : Instr :=
  match m with
  | .nop => .nop
  | .hlt => .hlt
  | .ldi => .ldi op1 op2
  | .ld => .ld op1 op2
  | .st => .st op1 op2
  | .prn => .prn op1
  | .pra => .pra op1
  | .add => .add op1 op2
  | .addi => .addi op1 op2
  | .inc => .inc op1
  | .sub => .sub op1 op2
  | .subi => .subi op1 op2
  | .dec => .dec op1
  | .mul => .mul op1 op2
  | .div => .div op1 op2
  | .mod => .mod op1 op2
  | .shl => .shl op1 op2
  | .shr => .shr op1 op2
  | .and => .and op1 op2
  | .or => .or op1 op2
  | .xor => .xor op1 op2
  | .not => .not op1
  | .cmp => .cmp op1 op2
  | .jmp => .jmp op1
  | .jeq => .jeq op1
  | .jne => .jne op1
  | .jlt => .jlt op1
  | .jle => .jle op1
  | .jgt => .jgt op1
  | .jge => .jge op1

/-- Why bytes are no instruction. -/
inductive DecodeError
  /-- There is no opcode byte. -/
  | noOpcode
  /-- The opcode byte is no code of the table (R78). -/
  | unknownOpcode (op : Byte)
  /-- The bytes end before the operands of this mnemonic do. -/
  | missingOperands (m : Mnemonic)
  deriving DecidableEq, Repr

/-- Decode the first instruction of a byte sequence and give the bytes after it. Total: every sequence gives an instruction or a
refusal by name (R79, R80). -/
def decode (t : OpcodeTable) : List Byte → Except DecodeError (Instr × List Byte)
  | [] => .error .noOpcode
  | op :: rest =>
    match resolve t op with
    | none => .error (.unknownOpcode op)
    | some m =>
      if rest.length < m.format.operands then .error (.missingOperands m)
      else .ok (m.instr (rest.getD 0 0) (rest.getD 1 0), rest.drop m.format.operands)

/-! ### Encoding -/

/-- The operand bytes of an instruction, in encoding order (R74). -/
def Instr.operands : Instr → List Byte
  | .nop => []
  | .hlt => []
  | .ldi r v => [r, v]
  | .ld a b => [a, b]
  | .st a b => [a, b]
  | .prn r => [r]
  | .pra r => [r]
  | .add a b => [a, b]
  | .addi r v => [r, v]
  | .inc r => [r]
  | .sub a b => [a, b]
  | .subi r v => [r, v]
  | .dec r => [r]
  | .mul a b => [a, b]
  | .div a b => [a, b]
  | .mod a b => [a, b]
  | .shl a b => [a, b]
  | .shr a b => [a, b]
  | .and a b => [a, b]
  | .or a b => [a, b]
  | .xor a b => [a, b]
  | .not r => [r]
  | .cmp a b => [a, b]
  | .jmp r => [r]
  | .jeq r => [r]
  | .jne r => [r]
  | .jlt r => [r]
  | .jle r => [r]
  | .jgt r => [r]
  | .jge r => [r]

/-- The bytes of an instruction: its code, then its operands (R70, R74, R81). -/
def encode (t : OpcodeTable) (i : Instr) : List Byte :=
  t i.mnemonic :: i.operands

/-! ### The host's word -/

/-- The three bytes at which an instruction of `nbits` bits `w` stands: bit 0 is the least significant bit of the first byte, and
every bit above `nbits` is 0. Three bytes are the longest instruction (R70). -/
def wordBytes (nbits w : Nat) : List Byte :=
  let v := w % 2 ^ nbits
  [BitVec.ofNat 8 v, BitVec.ofNat 8 (v / 256), BitVec.ofNat 8 (v / 65536)]

/-- The instruction the decoder reads from a word numbered as spec/opcode_table.json numbers it, under the default table. -/
def decodeTableWord (nbits w : Nat) : Option Instr :=
  match decode Config.standard.table (wordBytes nbits w) with
  | .ok (i, _) => some i
  | .error _ => none

end Sys2Proof
end

