-- ==== Sys2Proof/Machine/Ops.lean ====
section
/-! DEFINITION. The named operations over memory, registers and the loop's state (spec 00_scope.md R10, 20_memory.md R51), raising a
fault (60_exceptions.md R182), the program counter's advance (40_cycle.md R97) and halting (R98). There is no return from a fault
(60_exceptions.md R186), so no operation stands for one. -/

namespace Sys2Proof.Machine

/-! ### Memory -/

/-- `MemRead(a, 1)` (20_memory.md R51). -/
def Memory.read : Memory → Nat → Byte
  | [], _ => unlistedByte
  | (k, v) :: rest, a => if k = a then v else Memory.read rest a

/-- `MemWrite(a, 1, v)` (20_memory.md R51), keeping the canonical form: writing what an unlisted address reads as removes the
entry. -/
def Memory.write : Memory → Nat → Byte → Memory
  | [], a, v => if v = unlistedByte then [] else [(a, v)]
  | (k, w) :: rest, a, v =>
    if a < k then (if v = unlistedByte then (k, w) :: rest else (a, v) :: (k, w) :: rest)
    else if a = k then (if v = unlistedByte then rest else (a, v) :: rest)
    else (k, w) :: Memory.write rest a v

/-- Write consecutive bytes from an address on, which wraps modulo 256. -/
def Memory.writeBytes : Memory → Byte → List Byte → Memory
  | m, _, [] => m
  | m, a, v :: vs => Memory.writeBytes (m.write a.toNat v) (a + 1) vs

/-- The byte at an address (every address 0..255 exists: 20_memory.md R53). -/
def State.memRead (s : State) (a : Byte) : Byte := s.mem.read a.toNat

/-- Write one byte of memory. -/
def State.memWrite (s : State) (a v : Byte) : State := { s with mem := s.mem.write a.toNat v }

/-! ### Registers, flags, program counter, output -/

/-- `x[r]` (00_scope.md R10). -/
def State.getReg (s : State) (r : Fin 8) : Byte := s.x[r]

/-- `x[r] <- v` (00_scope.md R10). -/
def State.setReg (s : State) (r : Fin 8) (v : Byte) : State := { s with x := s.x.set r v }

/-- `pc <- t` (00_scope.md R10). -/
def State.setPc (s : State) (t : Byte) : State := { s with pc := t }

/-- Write all three flags (10_state.md R29). -/
def State.setFlags (s : State) (f : Flags) : State := { s with fl := f }

/-- `out <- out ++ [e]` (00_scope.md R10). -/
def State.emit (s : State) (e : OutEvent) : State := { s with out := s.out ++ [e] }

/-! ### The cycle's own operations -/

/-- `raise Fault(kind, info)` in the cycle whose opcode byte `op` is at `pc` (60_exceptions.md R182): status and record are written,
and nothing else. -/
def State.raise (s : State) (kind : FaultKind) (op info : Byte) : State :=
  { s with status := .faulted, fault := some { kind := kind, pc := s.pc, opcode := op, info := info } }

/-- Step 6 (40_cycle.md R97) after a handler left `s`: with `p` the address of the opcode byte `op`, pc moves past the instruction
unless bit 4 of `op` is set. -/
def State.advance (s : State) (op p : Byte) : State :=
  { s with pc := if setsPC op then s.pc else p + BitVec.ofNat 8 (operandCount op + 1) }

/-- Step 7 for HLT (40_cycle.md R98). -/
def State.halt (s : State) : State := { s with status := .halted }

end Sys2Proof.Machine
end

