-- ==== Sys2Proof/Machine/Operands.lean ====
section
/-! DEFINITION. Operand forms (spec 30_encoding.md R74, R75; 00_scope.md R11) and the shapes of handler that share them. Each shape
reads its register operands, op1 before op2 (60_exceptions.md R185), reads all sources before it writes (20_memory.md R60), and ends
with step 6 of the cycle (40_cycle.md R97). -/

namespace Sys2Proof.Machine

/-- `reg(b)` (00_scope.md R11): the register an operand byte names, or none where the policy makes it BAD_REGISTER. -/
def regOf (c : Config) (b : Byte) : Option (Fin 8) :=
  if b.toNat < 8 then some (Fin.ofNat 8 b.toNat)
  else
    match c.regIndexPolicy with
    | .fault => none
    | .low3 => some (Fin.ofNat 8 (b &&& 7#8).toNat)

/-- Use a register operand of mnemonic `m`, or raise BAD_REGISTER with the operand byte as info (60_exceptions.md R184). -/
def withReg (c : Config) (m : Mnemonic) (b : Byte) (s : State) (k : Fin 8 → State) : State :=
  match regOf c b with
  | some r => k r
  | none => s.raise .badRegister (c.table m) b

/-- Use two register operands; op1 is checked first (60_exceptions.md R185). -/
def withRegs (c : Config) (m : Mnemonic) (a b : Byte) (s : State) (k : Fin 8 → Fin 8 → State) : State :=
  withReg c m a s fun ra => withReg c m b s fun rb => k ra rb

/-- A handler that writes one register: the write, then step 6. -/
def writeBack (c : Config) (m : Mnemonic) (r : Fin 8) (v : Byte) (s : State) : State :=
  (s.setReg r v).advance (c.table m) s.pc

/-- Format F1R, register to itself: `x[r] <- f x[r]`. -/
def unary (c : Config) (m : Mnemonic) (f : Byte → Byte) (r : Byte) (s : State) : State :=
  withReg c m r s fun t => writeBack c m t (f (s.getReg t)) s

/-- Format F2RR, two registers to the first: `x[a] <- f x[a] x[b]`. -/
def binary (c : Config) (m : Mnemonic) (f : Byte → Byte → Byte) (a b : Byte) (s : State) : State :=
  withRegs c m a b s fun ra rb => writeBack c m ra (f (s.getReg ra) (s.getReg rb)) s

/-- Format F2RI, register and immediate to the register: `x[r] <- f x[r] v`; the immediate is used as it stands (R75). -/
def binaryImm (c : Config) (m : Mnemonic) (f : Byte → Byte → Byte) (r v : Byte) (s : State) : State :=
  withReg c m r s fun t => writeBack c m t (f (s.getReg t) v) s

/-- DIV and MOD: as `binary`, but a divisor register that holds 0 raises DIVIDE_BY_ZERO, after both operands are checked
(60_exceptions.md R183, R185). -/
def divisive (c : Config) (m : Mnemonic) (f : Byte → Byte → Byte) (a b : Byte) (s : State) : State :=
  withRegs c m a b s fun ra rb =>
    if s.getReg rb = 0 then s.raise .divideByZero (c.table m) 0
    else writeBack c m ra (f (s.getReg ra) (s.getReg rb)) s

/-- The jump family: to the register's value where the condition holds, else past the one operand; the handler sets pc in both
cases (45_compare_jump.md R168). -/
def jumpIf (c : Config) (m : Mnemonic) (cond : Flags → Bool) (r : Byte) (s : State) : State :=
  withReg c m r s fun t => (s.setPc (if cond s.fl then s.getReg t else s.pc + 2)).advance (c.table m) s.pc

/-- PRN and PRA: append one event (42_io.md). -/
def output (c : Config) (m : Mnemonic) (event : Byte → OutEvent) (r : Byte) (s : State) : State :=
  withReg c m r s fun t => (s.emit (event (s.getReg t))).advance (c.table m) s.pc

end Sys2Proof.Machine
end

