-- ==== Sys2Proof/Machine/Arith.lean ====
section
/-! DEFINITION. Arithmetic: ADD, ADDI, INC, SUB, SUBI, DEC, MUL, DIV, MOD (spec 43_arith.md). Every result is reduced modulo 256
(R139), which the byte type's own arithmetic does; no flag is written. -/

namespace Sys2Proof.Machine

/-- ADD: `x[a] <- (x[a] + x[b]) mod 256` (R130). -/
def handleAdd (c : Config) (a b : Byte) (s : State) : State :=
  binary c .add (fun va vb => va + vb) a b s

/-- ADD on the standard machine (R130). -/
def execAdd (a b : Byte) (s : State) : Host.Outcome State Fault Refusal :=
  .next (handleAdd Config.standard a b s)

/-- ADDI: `x[r] <- (x[r] + op2) mod 256` (R131). -/
def handleAddi (c : Config) (r v : Byte) (s : State) : State :=
  binaryImm c .addi (fun vr i => vr + i) r v s

/-- ADDI on the standard machine (R131). -/
def execAddi (r v : Byte) (s : State) : Host.Outcome State Fault Refusal :=
  .next (handleAddi Config.standard r v s)

/-- INC: `x[r] <- (x[r] + 1) mod 256` (R132). -/
def handleInc (c : Config) (r : Byte) (s : State) : State :=
  unary c .inc (fun vr => vr + 1) r s

/-- INC on the standard machine (R132). -/
def execInc (r : Byte) (s : State) : Host.Outcome State Fault Refusal :=
  .next (handleInc Config.standard r s)

/-- SUB: `x[a] <- (x[a] - x[b]) mod 256`, masked (C2; log entry 7) (R133). -/
def handleSub (c : Config) (a b : Byte) (s : State) : State :=
  binary c .sub (fun va vb => va - vb) a b s

/-- SUB on the standard machine (R133). -/
def execSub (a b : Byte) (s : State) : Host.Outcome State Fault Refusal :=
  .next (handleSub Config.standard a b s)

/-- SUBI: `x[r] <- (x[r] - op2) mod 256` (R134). -/
def handleSubi (c : Config) (r v : Byte) (s : State) : State :=
  binaryImm c .subi (fun vr i => vr - i) r v s

/-- SUBI on the standard machine (R134). -/
def execSubi (r v : Byte) (s : State) : Host.Outcome State Fault Refusal :=
  .next (handleSubi Config.standard r v s)

/-- DEC: `x[r] <- (x[r] - 1) mod 256` (R135). -/
def handleDec (c : Config) (r : Byte) (s : State) : State :=
  unary c .dec (fun vr => vr - 1) r s

/-- DEC on the standard machine (R135). -/
def execDec (r : Byte) (s : State) : Host.Outcome State Fault Refusal :=
  .next (handleDec Config.standard r s)

/-- MUL: `x[a] <- (x[a] * x[b]) mod 256` (R136). -/
def handleMul (c : Config) (a b : Byte) (s : State) : State :=
  binary c .mul (fun va vb => va * vb) a b s

/-- MUL on the standard machine (R136). -/
def execMul (a b : Byte) (s : State) : Host.Outcome State Fault Refusal :=
  .next (handleMul Config.standard a b s)

/-- DIV: `x[a] <- x[a] div x[b]`, or DIVIDE_BY_ZERO (R137). -/
def handleDiv (c : Config) (a b : Byte) (s : State) : State :=
  divisive c .div (fun va vb => va / vb) a b s

/-- DIV on the standard machine (R137). -/
def execDiv (a b : Byte) (s : State) : Host.Outcome State Fault Refusal :=
  .next (handleDiv Config.standard a b s)

/-- MOD: `x[a] <- x[a] mod x[b]`, or DIVIDE_BY_ZERO (R138). -/
def handleMod (c : Config) (a b : Byte) (s : State) : State :=
  divisive c .mod (fun va vb => va % vb) a b s

/-- MOD on the standard machine (R138). -/
def execMod (a b : Byte) (s : State) : Host.Outcome State Fault Refusal :=
  .next (handleMod Config.standard a b s)

end Sys2Proof.Machine
end

