-- ==== Sys2Proof/Machine/Flags.lean ====
section
/-! DEFINITION. The flag computation of CMP (spec 45_compare_jump.md R160), the jump conditions over the flags (R162 to R167) and the
flags as a byte (10_state.md R32). -/

namespace Sys2Proof.Machine

/-- CMP's flags for two unsigned values (R160). -/
def compareFlags (va vb : Byte) : Flags where
  equal := decide (va.toNat = vb.toNat)
  greater := decide (va.toNat > vb.toNat)
  less := decide (va.toNat < vb.toNat)

/-- JMP's condition: always (R161). -/
def condAlways (_ : Flags) : Bool := true

/-- JEQ's condition (R162). -/
def condEqual (f : Flags) : Bool := f.equal

/-- JNE's condition (R163). -/
def condNotEqual (f : Flags) : Bool := !f.equal

/-- JLT's condition (R164). -/
def condLess (f : Flags) : Bool := f.less

/-- JLE's condition (R165). -/
def condLessOrEqual (f : Flags) : Bool := f.less || f.equal

/-- JGT's condition (R166). -/
def condGreater (f : Flags) : Bool := f.greater

/-- JGE's condition (R167). -/
def condGreaterOrEqual (f : Flags) : Bool := f.greater || f.equal

/-- FLbyte = 0b00000LGE (R32), for display only. -/
def Flags.byte (f : Flags) : Byte :=
  BitVec.ofNat 8 ((if f.less then 4 else 0) + (if f.greater then 2 else 0) + (if f.equal then 1 else 0))

end Sys2Proof.Machine
end

