-- ==== Sys2Proof/Machine/Compare.lean ====
section
/-! DEFINITION. Compare and jumps: CMP, JMP, JEQ, JNE, JLT, JLE, JGT, JGE (spec 45_compare_jump.md). -/

namespace Sys2Proof.Machine

/-- CMP: all three flags from the unsigned order of the two registers (R160). -/
def handleCmp (c : Config) (a b : Byte) (s : State) : State :=
  withRegs c .cmp a b s fun ra rb =>
    (s.setFlags (compareFlags (s.getReg ra) (s.getReg rb))).advance (c.table .cmp) s.pc

/-- CMP on the standard machine (R160). -/
def execCmp (a b : Byte) (s : State) : Host.Outcome State Fault Refusal :=
  .next (handleCmp Config.standard a b s)

/-- JMP: to `x[r]` (R161). -/
def handleJmp (c : Config) (r : Byte) (s : State) : State :=
  jumpIf c .jmp condAlways r s

/-- JMP on the standard machine (R161). -/
def execJmp (r : Byte) (s : State) : Host.Outcome State Fault Refusal :=
  .next (handleJmp Config.standard r s)

/-- JEQ: if FL.E (R162). -/
def handleJeq (c : Config) (r : Byte) (s : State) : State :=
  jumpIf c .jeq condEqual r s

/-- JEQ on the standard machine (R162). -/
def execJeq (r : Byte) (s : State) : Host.Outcome State Fault Refusal :=
  .next (handleJeq Config.standard r s)

/-- JNE: if not FL.E (R163). -/
def handleJne (c : Config) (r : Byte) (s : State) : State :=
  jumpIf c .jne condNotEqual r s

/-- JNE on the standard machine (R163). -/
def execJne (r : Byte) (s : State) : Host.Outcome State Fault Refusal :=
  .next (handleJne Config.standard r s)

/-- JLT: if FL.L (R164). -/
def handleJlt (c : Config) (r : Byte) (s : State) : State :=
  jumpIf c .jlt condLess r s

/-- JLT on the standard machine (R164). -/
def execJlt (r : Byte) (s : State) : Host.Outcome State Fault Refusal :=
  .next (handleJlt Config.standard r s)

/-- JLE: if FL.L or FL.E (R165). -/
def handleJle (c : Config) (r : Byte) (s : State) : State :=
  jumpIf c .jle condLessOrEqual r s

/-- JLE on the standard machine (R165). -/
def execJle (r : Byte) (s : State) : Host.Outcome State Fault Refusal :=
  .next (handleJle Config.standard r s)

/-- JGT: if FL.G (R166). -/
def handleJgt (c : Config) (r : Byte) (s : State) : State :=
  jumpIf c .jgt condGreater r s

/-- JGT on the standard machine (R166). -/
def execJgt (r : Byte) (s : State) : Host.Outcome State Fault Refusal :=
  .next (handleJgt Config.standard r s)

/-- JGE: if FL.G or FL.E (R167). -/
def handleJge (c : Config) (r : Byte) (s : State) : State :=
  jumpIf c .jge condGreaterOrEqual r s

/-- JGE on the standard machine (R167). -/
def execJge (r : Byte) (s : State) : Host.Outcome State Fault Refusal :=
  .next (handleJge Config.standard r s)

end Sys2Proof.Machine
end

