-- ==== Sys2Proof/Machine/Control.lean ====
section
/-! DEFINITION. Machine control and data movement: NOP, HLT, LDI, LD, ST (spec 41_control_data.md). For each
instruction: `handle…`, its handler and steps 6 and 7 of the cycle under any configuration, and `exec…`, the same on the standard
machine. -/

namespace Sys2Proof.Machine

/-- NOP: only step 6 (R110). -/
def handleNop (c : Config) (s : State) : State :=
  s.advance (c.table .nop) s.pc

/-- NOP on the standard machine (R110). -/
def execNop (s : State) : Host.Outcome State Fault Refusal :=
  .next (handleNop Config.standard s)

/-- HLT: step 6 as HLT's own code says, then step 7: status Halted (R111, 90_conflicts.md C1). -/
def handleHlt (c : Config) (s : State) : State :=
  (s.advance (c.table .hlt) s.pc).halt

/-- HLT on the standard machine (R111, 90_conflicts.md C1). -/
def execHlt (s : State) : Host.Outcome State Fault Refusal :=
  .next (handleHlt Config.standard s)

/-- LDI: `x[r] <- op2` (R112). -/
def handleLdi (c : Config) (r v : Byte) (s : State) : State :=
  withReg c .ldi r s fun t => writeBack c .ldi t v s

/-- LDI on the standard machine (R112). -/
def execLdi (r v : Byte) (s : State) : Host.Outcome State Fault Refusal :=
  .next (handleLdi Config.standard r v s)

/-- LD: `x[a] <- M[x[b]]` (R113). -/
def handleLd (c : Config) (a b : Byte) (s : State) : State :=
  withRegs c .ld a b s fun ra rb => writeBack c .ld ra (s.memRead (s.getReg rb)) s

/-- LD on the standard machine (R113). -/
def execLd (a b : Byte) (s : State) : Host.Outcome State Fault Refusal :=
  .next (handleLd Config.standard a b s)

/-- ST: `M[x[a]] <- x[b]`; the address register comes first (R114). -/
def handleSt (c : Config) (a b : Byte) (s : State) : State :=
  withRegs c .st a b s fun ra rb => (s.memWrite (s.getReg ra) (s.getReg rb)).advance (c.table .st) s.pc

/-- ST on the standard machine (R114). -/
def execSt (a b : Byte) (s : State) : Host.Outcome State Fault Refusal :=
  .next (handleSt Config.standard a b s)

end Sys2Proof.Machine
end

