-- ==== Sys2Proof/Machine/Logic.lean ====
section
/-! DEFINITION. Shifts and bitwise logic: SHL, SHR, AND, OR, XOR, NOT (spec 44_logic_shift.md). The shift amount is the whole value
of the second register, not reduced modulo 8 (D28); no flag is written. -/

namespace Sys2Proof.Machine

/-- SHL: `x[a] <- (x[a] << x[b]) mod 256` (R150). -/
def handleShl (c : Config) (a b : Byte) (s : State) : State :=
  binary c .shl (fun va vb => va <<< vb.toNat) a b s

/-- SHL on the standard machine (R150). -/
def execShl (a b : Byte) (s : State) : Host.Outcome State Fault Refusal :=
  .next (handleShl Config.standard a b s)

/-- SHR, logical: `x[a] <- x[a] >> x[b]` (R151). -/
def handleShr (c : Config) (a b : Byte) (s : State) : State :=
  binary c .shr (fun va vb => va >>> vb.toNat) a b s

/-- SHR on the standard machine (R151). -/
def execShr (a b : Byte) (s : State) : Host.Outcome State Fault Refusal :=
  .next (handleShr Config.standard a b s)

/-- AND: `x[a] <- x[a] & x[b]` (R152). -/
def handleAnd (c : Config) (a b : Byte) (s : State) : State :=
  binary c .and (fun va vb => va &&& vb) a b s

/-- AND on the standard machine (R152). -/
def execAnd (a b : Byte) (s : State) : Host.Outcome State Fault Refusal :=
  .next (handleAnd Config.standard a b s)

/-- OR: `x[a] <- x[a] | x[b]` (R153). -/
def handleOr (c : Config) (a b : Byte) (s : State) : State :=
  binary c .or (fun va vb => va ||| vb) a b s

/-- OR on the standard machine (R153). -/
def execOr (a b : Byte) (s : State) : Host.Outcome State Fault Refusal :=
  .next (handleOr Config.standard a b s)

/-- XOR: `x[a] <- x[a] ^ x[b]` (R154). -/
def handleXor (c : Config) (a b : Byte) (s : State) : State :=
  binary c .xor (fun va vb => va ^^^ vb) a b s

/-- XOR on the standard machine (R154). -/
def execXor (a b : Byte) (s : State) : Host.Outcome State Fault Refusal :=
  .next (handleXor Config.standard a b s)

/-- NOT: `x[r] <- (~x[r]) & 0xFF` (R155). -/
def handleNot (c : Config) (r : Byte) (s : State) : State :=
  unary c .not (fun vr => ~~~vr) r s

/-- NOT on the standard machine (R155). -/
def execNot (r : Byte) (s : State) : Host.Outcome State Fault Refusal :=
  .next (handleNot Config.standard r s)

end Sys2Proof.Machine
end

