-- ==== Sys2Proof/Machine/Output.lean ====
section
/-! DEFINITION. Output: PRN and PRA (spec 42_io.md), and the text an output event stands for (R122). -/

namespace Sys2Proof.Machine

/-- PRN: `out <- out ++ [Dec(x[r])]` (R120). -/
def handlePrn (c : Config) (r : Byte) (s : State) : State :=
  output c .prn OutEvent.dec r s

/-- PRN on the standard machine (R120). -/
def execPrn (r : Byte) (s : State) : Host.Outcome State Fault Refusal :=
  .next (handlePrn Config.standard r s)

/-- PRA: `out <- out ++ [Char(x[r])]` (R121). -/
def handlePra (c : Config) (r : Byte) (s : State) : State :=
  output c .pra OutEvent.char r s

/-- PRA on the standard machine (R121). -/
def execPra (r : Byte) (s : State) : Host.Outcome State Fault Refusal :=
  .next (handlePra Config.standard r s)

/-- What an event stands for (R122): the decimal digits of the value, or the one Latin-1 character. Separators are the host's
(log entry 11). -/
def OutEvent.text : OutEvent → List Char
  | .dec v => Nat.toDigits 10 v.toNat
  | .char v => [Char.ofNat v.toNat]

end Sys2Proof.Machine
end

