-- ==== Sys2Proof/Machine/Dispatch.lean ====
section
/-! DEFINITION. exec: one arm per constructor of Instr, each one call of that instruction's meaning on the standard machine. -/

namespace Sys2Proof.Machine

def exec (i : Instr) (s : State) : Host.Outcome State Fault Refusal :=
  match i with
  | .nop => Sys2Proof.Machine.execNop s
  | .hlt => Sys2Proof.Machine.execHlt s
  | .ldi r v => Sys2Proof.Machine.execLdi r v s
  | .ld a b => Sys2Proof.Machine.execLd a b s
  | .st a b => Sys2Proof.Machine.execSt a b s
  | .prn r => Sys2Proof.Machine.execPrn r s
  | .pra r => Sys2Proof.Machine.execPra r s
  | .add a b => Sys2Proof.Machine.execAdd a b s
  | .addi r v => Sys2Proof.Machine.execAddi r v s
  | .inc r => Sys2Proof.Machine.execInc r s
  | .sub a b => Sys2Proof.Machine.execSub a b s
  | .subi r v => Sys2Proof.Machine.execSubi r v s
  | .dec r => Sys2Proof.Machine.execDec r s
  | .mul a b => Sys2Proof.Machine.execMul a b s
  | .div a b => Sys2Proof.Machine.execDiv a b s
  | .mod a b => Sys2Proof.Machine.execMod a b s
  | .shl a b => Sys2Proof.Machine.execShl a b s
  | .shr a b => Sys2Proof.Machine.execShr a b s
  | .and a b => Sys2Proof.Machine.execAnd a b s
  | .or a b => Sys2Proof.Machine.execOr a b s
  | .xor a b => Sys2Proof.Machine.execXor a b s
  | .not r => Sys2Proof.Machine.execNot r s
  | .cmp a b => Sys2Proof.Machine.execCmp a b s
  | .jmp r => Sys2Proof.Machine.execJmp r s
  | .jeq r => Sys2Proof.Machine.execJeq r s
  | .jne r => Sys2Proof.Machine.execJne r s
  | .jlt r => Sys2Proof.Machine.execJlt r s
  | .jle r => Sys2Proof.Machine.execJle r s
  | .jgt r => Sys2Proof.Machine.execJgt r s
  | .jge r => Sys2Proof.Machine.execJge r s

end Sys2Proof.Machine
end

