-- ==== Sys2Proof/Machine/Handlers.lean ====
section
/-! DEFINITION. The handler array (spec 00_scope.md R2, `alu_handler_array`) under any configuration: steps 5 to 7 of the cycle for a
decoded instruction. `exec` is the same array on the standard machine. -/

namespace Sys2Proof.Machine

/-- Run one decoded instruction whose opcode is at `s.pc` (40_cycle.md R95 to R98) on the machine with configuration `c`. -/
def handle (c : Config) (i : Instr) (s : State) : State :=
  match i with
  | .nop => handleNop c s
  | .hlt => handleHlt c s
  | .ldi r v => handleLdi c r v s
  | .ld a b => handleLd c a b s
  | .st a b => handleSt c a b s
  | .prn r => handlePrn c r s
  | .pra r => handlePra c r s
  | .add a b => handleAdd c a b s
  | .addi r v => handleAddi c r v s
  | .inc r => handleInc c r s
  | .sub a b => handleSub c a b s
  | .subi r v => handleSubi c r v s
  | .dec r => handleDec c r s
  | .mul a b => handleMul c a b s
  | .div a b => handleDiv c a b s
  | .mod a b => handleMod c a b s
  | .shl a b => handleShl c a b s
  | .shr a b => handleShr c a b s
  | .and a b => handleAnd c a b s
  | .or a b => handleOr c a b s
  | .xor a b => handleXor c a b s
  | .not r => handleNot c r s
  | .cmp a b => handleCmp c a b s
  | .jmp r => handleJmp c r s
  | .jeq r => handleJeq c r s
  | .jne r => handleJne c r s
  | .jlt r => handleJlt c r s
  | .jle r => handleJle c r s
  | .jgt r => handleJgt c r s
  | .jge r => handleJge c r s

end Sys2Proof.Machine
end

