-- ==== Sys2Proof/Machine/Fetch.lean ====
section
/-! DEFINITION. Steps 1 to 4 of the cycle (spec 40_cycle.md R91 to R94), and the whole cycle under any configuration (R90, R99, R100)
with the run it makes. -/

namespace Sys2Proof.Machine

/-- Step 1: the opcode byte (R91). -/
def State.opcode (s : State) : Byte := s.memRead s.pc

/-- Step 3: the k-th operand byte, at `(pc + k) mod 256` (R93). -/
def State.operand (s : State) (k : Byte) : Byte := s.memRead (s.pc + k)

/-- The bytes an instruction at pc can occupy, the next three of memory with wrap (R93; 60_exceptions.md R193). -/
def State.window (s : State) : List Byte := [s.opcode, s.operand 1, s.operand 2]

/-- Steps 1 to 4: the instruction at pc, or none where its opcode is unknown. Only the operand bytes the instruction has are used; the
reads of an unknown opcode's operands change nothing and are skipped (R93, D25). -/
def fetchInstr (t : OpcodeTable) (s : State) : Option Instr :=
  (resolve t s.opcode).map fun m => m.instr (s.operand 1) (s.operand 2)

/-- Step 4 for an unknown opcode (R94, 60_exceptions.md R181). -/
def unknownOpcode (s : State) : State := s.raise .unknownOpcode s.opcode 0

/-- One `step` request on the machine with configuration `c` (R99): a cycle while status is Running; otherwise it is ignored
(70_reset_and_hazards.md R207, 40_cycle.md R100). -/
def stepUnder (c : Config) (s : State) : State :=
  match s.status with
  | .running =>
    match fetchInstr c.table s with
    | none => unknownOpcode s
    | some i => handle c i s
  | .halted => s
  | .faulted => s

/-- `k` step requests. -/
def runUnder (c : Config) : Nat → State → State
  | 0, s => s
  | k + 1, s => runUnder c k (stepUnder c s)

end Sys2Proof.Machine
end

