-- ==== Sys2Proof/Machine/Step.lean ====
section
/-! DEFINITION. One step of the standard machine (spec 40_cycle.md R90, R99), and the host's way to place an instruction where the
next step fetches it. -/

namespace Sys2Proof.Machine

/-- One step: a cycle while status is Running; from Halted or Faulted a step request is ignored and nothing changes
(40_cycle.md R100, 70_reset_and_hazards.md R207; log entry 5). -/
def step (s : State) : Host.Outcome State Fault Refusal :=
  match s.status with
  | .running =>
    match fetchInstr Config.standard.table s with
    | none => .next (unknownOpcode s)
    | some i => exec i s
  | .halted => .next s
  | .faulted => .next s

/-- The instruction of `nbits` bits `w` at pc, with status Running and no fault record, so that the very next step runs it. It stands
for a load from outside the machine (log entry 9). -/
def State.withFetchWord (s : State) (nbits w : Nat) : State :=
  { s with mem := s.mem.writeBytes s.pc (wordBytes nbits w), status := .running, fault := none }

end Sys2Proof.Machine
end

