-- ==== Sys2Proof/Machine/Loader.lean ====
section
/-! DEFINITION. Loading a program (spec 70_reset_and_hazards.md R201 to R203) and the text program format of the loader (R204), which
is outside the core (00_scope.md R4) and given here because the spec gives its rules. -/

namespace Sys2Proof.Machine

/-! ### Loading bytes -/

/-- `load(bytes)` (R201): the bytes from address 0 on; nothing else changes. None where the program exceeds 256 bytes (R202). -/
def load (bytes : List Byte) (s : State) : Option State :=
  if bytes.length ≤ 256 then some { s with mem := s.mem.writeBytes 0 bytes } else none

/-- What a refused load leaves (R202, 60_exceptions.md R194): memory holds any value, a free value (93_implementation_defined.md; log
entry 13); nothing else changes, so status and fault are not set. -/
def refusedLoad (bytes : List Byte) (s : State) : State :=
  { s with mem := Memory.writeBytes [] 0 (Config.refusedLoadLeaves bytes) }

/-- Reset, then load the program given, or DEFAULT_PROGRAM where none is (R206, R203): the state before the first cycle. -/
def boot (c : Config) (program : Option (List Byte)) : Option State :=
  load (program.getD c.defaultProgram) State.reset

/-! ### The text format -/

/-- The value of a digit, letters of either case standing for 10 to 35 (DESIGN CHOICE, log entry 14). -/
def digitValue (ch : Char) : Option Nat :=
  if '0'.toNat ≤ ch.toNat ∧ ch.toNat ≤ '9'.toNat then some (ch.toNat - '0'.toNat)
  else if 'a'.toNat ≤ ch.toNat ∧ ch.toNat ≤ 'z'.toNat then some (ch.toNat - 'a'.toNat + 10)
  else if 'A'.toNat ≤ ch.toNat ∧ ch.toNat ≤ 'Z'.toNat then some (ch.toNat - 'A'.toNat + 10)
  else none

/-- The number a digit sequence denotes from the accumulator on, or none where a character is no digit of the base. -/
def digitsValue (base : Nat) : Nat → List Char → Option Nat
  | acc, [] => some acc
  | acc, ch :: rest =>
    match digitValue ch with
    | some d => if d < base then digitsValue base (acc * base + d) rest else none
    | none => none

/-- What remains of a line after its comment and all white space are removed (R204, 90_conflicts.md C4). -/
def literalOf (line : List Char) : List Char :=
  (line.takeWhile fun ch => ch != '#').filter fun ch => !ch.isWhitespace

/-- What one line of program text gives. -/
inductive LineResult
  /-- A byte of the program. -/
  | byte (b : Byte)
  /-- Blank or unparseable: skipped (R204). -/
  | skipped
  /-- A literal of 256 or more under the policy `reject` (R204). -/
  | rejected
  deriving DecidableEq, Repr

/-- One line (R204). -/
def parseLine (w : WideLiteral) (base : Nat) (line : List Char) : LineResult :=
  match literalOf line with
  | [] => .skipped
  | ch :: rest =>
    match digitsValue base 0 (ch :: rest) with
    | none => .skipped
    | some v =>
      if v < 256 then .byte (BitVec.ofNat 8 v)
      else
        match w with
        | .skip => .skipped
        | .reject => .rejected

/-- The bytes of a program text, line by line, or none where a line is rejected (R204). -/
def parseText (w : WideLiteral) (base : Nat) : List (List Char) → Option (List Byte)
  | [] => some []
  | line :: rest =>
    match parseLine w base line with
    | .byte b => (parseText w base rest).map fun bs => b :: bs
    | .skipped => parseText w base rest
    | .rejected => none

/-- The base of literals where the host configures none: binary (R204). -/
def defaultBase : Nat := 2

/-- Parse a program text and load its bytes; none where a line is rejected or the program exceeds 256 bytes (R204). -/
def loadText (c : Config) (base : Nat) (lines : List (List Char)) (s : State) : Option State :=
  (parseText c.wideLiteral base lines).bind fun bytes => load bytes s

end Sys2Proof.Machine
end

