-- ==== Sys2Proof/Machine/Interface.lean ====
section
/-! DEFINITION. The block's interface (spec 70_reset_and_hazards.md R207, R208): the output ports, the trace port (60_exceptions.md R193)
and the host's moves on a session: reset, load, step, stop. The host has no other move on the state (D13, D15). -/

namespace Sys2Proof.Machine

/-! ### Output ports -/

/-- `status` as a number (10_state.md R34). -/
def Status.code : Status → BitVec 2
  | .running => 0
  | .halted => 1
  | .faulted => 2

/-- `kind` as a number (10_state.md R35). -/
def FaultKind.code : FaultKind → BitVec 2
  | .unknownOpcode => 1
  | .divideByZero => 2
  | .badRegister => 3

/-- The ports that show the state. -/
structure Ports where
  status : BitVec 2
  /-- 0 where there is no fault. -/
  faultKind : BitVec 2
  /-- A free value where there is no fault: the spec gives the port none there (log entry 12). -/
  faultPc : Byte
  /-- As `faultPc`. -/
  faultOpcode : Byte
  /-- The bad register operand byte, or 0. -/
  faultInfo : Byte
  deriving DecidableEq, Repr

/-- The status and fault ports (R207). -/
def State.ports (s : State) : Ports :=
  match s.fault with
  | some r => ⟨s.status.code, r.kind.code, r.pc, r.opcode, r.info⟩
  | none => ⟨s.status.code, 0, Config.idleFaultPc s, Config.idleFaultOpcode s, 0⟩

/-- `out_event` (R207): the event a cycle appended, if it did. -/
def outEvent (before after : State) : Option OutEvent := (after.out.drop before.out.length).head?

/-- What the trace port shows (60_exceptions.md R193). -/
structure Trace where
  pc : Byte
  flByte : Byte
  next0 : Byte
  next1 : Byte
  next2 : Byte
  x : Vector Byte 8
  deriving DecidableEq, Repr

/-- The trace port; reading it changes no state (60_exceptions.md R193). -/
def State.trace (s : State) : Trace where
  pc := s.pc
  flByte := s.fl.byte
  next0 := s.memRead s.pc
  next1 := s.memRead (s.pc + 1)
  next2 := s.memRead (s.pc + 2)
  x := s.x

/-! ### The host's moves -/

/-- Where the host is with one CPU (R206, R208). -/
inductive Session
  /-- After reset, nothing loaded, no cycle run. -/
  | fresh (s : State)
  /-- A program is loaded, no cycle run. -/
  | loaded (s : State)
  /-- Cycles have been asked for. -/
  | started (s : State)
  /-- The host stopped the run (40_cycle.md R101). -/
  | stopped (s : State)
  /-- A load was refused (R202): no cycle runs; memory holds any value, and all else is as after reset (60_exceptions.md R194). -/
  | loadRefused (s : State)
  /-- The program file was missing (R205): the state is untouched and no cycle runs. -/
  | notStarted (s : State)
  deriving DecidableEq, Repr

/-- The host's moves (R207), with the loader's failure of R205. -/
inductive HostMove
  | reset
  | load (bytes : List Byte)
  /-- The loader found no program file (R205). -/
  | programMissing
  | step
  | stop
  deriving DecidableEq, Repr

/-- One move of the host; none where the spec admits no such move (R201, R202, R205, R208, D13; log entry 13). -/
def Session.move (c : Config) : HostMove → Session → Option Session
  | .reset, _ => some (.fresh State.reset)
  | .load bytes, .fresh s =>
    match Sys2Proof.Machine.load bytes s with
    | some s' => some (.loaded s')
    | none => some (.loadRefused (refusedLoad bytes s))
  | .load _, .loaded _ => none
  | .load _, .started _ => none
  | .load _, .stopped _ => none
  | .load _, .loadRefused _ => none
  | .load _, .notStarted _ => none
  | .programMissing, .fresh s => some (.notStarted s)
  | .programMissing, .loaded _ => none
  | .programMissing, .started _ => none
  | .programMissing, .stopped _ => none
  | .programMissing, .loadRefused _ => none
  | .programMissing, .notStarted _ => none
  | .step, .fresh s => some (.started (stepUnder c s))
  | .step, .loaded s => some (.started (stepUnder c s))
  | .step, .started s => some (.started (stepUnder c s))
  | .step, .stopped _ => none
  | .step, .loadRefused _ => none
  | .step, .notStarted _ => none
  | .stop, .fresh s => some (.stopped s)
  | .stop, .loaded s => some (.stopped s)
  | .stop, .started s => some (.stopped s)
  | .stop, .stopped s => some (.stopped s)
  | .stop, .loadRefused s => some (.loadRefused s)
  | .stop, .notStarted s => some (.notStarted s)

/-- The state the host can inspect, at any time (R208). -/
def Session.state : Session → State
  | .fresh s => s
  | .loaded s => s
  | .started s => s
  | .stopped s => s
  | .loadRefused s => s
  | .notStarted s => s

/-- A sequence of moves, none where one of them is not admitted. -/
def Session.moves (c : Config) : List HostMove → Session → Option Session
  | [], z => some z
  | m :: rest, z =>
    match Session.move c m z with
    | some z' => Session.moves c rest z'
    | none => none

end Sys2Proof.Machine
end

