-- ==== Sys2Proof/Safety.lean ====
section
/-! DEFINITION. The terms in which claims about the machine are stated: the invariant of a state, what each instruction may write
(spec 10_state.md R22), the fault a cycle raises by the spec's order of priority (60_exceptions.md R185), and the shapes of an
instruction's rule. -/

namespace Sys2Proof.Machine

/-! ### The invariant -/

/-- A fault record says what is so of the machine that stopped with it (10_state.md R35, 60_exceptions.md R180, R182). -/
structure RecordHolds (c : Config) (s : State) (r : FaultRecord) : Prop where
  /-- pc is still at the faulting instruction. -/
  at_pc : r.pc = s.pc
  /-- The opcode recorded is the byte there. -/
  at_opcode : r.opcode = s.opcode
  /-- UNKNOWN_OPCODE: no mnemonic has that code. -/
  unknown : r.kind = .unknownOpcode → r.info = 0 ∧ ∀ m, c.table m ≠ r.opcode
  /-- DIVIDE_BY_ZERO: the code is DIV's or MOD's, and the divisor register holds 0. -/
  divide : r.kind = .divideByZero →
    r.info = 0 ∧ (r.opcode = c.table .div ∨ r.opcode = c.table .mod) ∧ ∃ rb, regOf c (s.operand 2) = some rb ∧ s.getReg rb = 0
  /-- BAD_REGISTER: `info` is an operand byte of the instruction, and it names no register. -/
  register : r.kind = .badRegister → regOf c r.info = none ∧ (r.info = s.operand 1 ∨ r.info = s.operand 2)

/-- The invariant every step keeps. -/
structure State.Inv (c : Config) (s : State) : Prop where
  /-- Memory is in its canonical form. -/
  mem_wf : s.mem.wf
  /-- At most one flag is true (10_state.md R29). -/
  one_flag : (s.fl.equal && s.fl.greater) = false ∧ (s.fl.equal && s.fl.less) = false ∧ (s.fl.greater && s.fl.less) = false
  /-- The record is present exactly when status is Faulted (10_state.md R35). -/
  record_iff : s.fault.isSome = true ↔ s.status = .faulted
  /-- The record, where present, is true of the state. -/
  record_holds : ∀ r, s.fault = some r → RecordHolds c s r

/-- The invariant of the host's session with one CPU, which every move keeps. -/
structure Session.Inv (c : Config) (z : Session) : Prop where
  /-- The state the host can inspect meets the invariant of states. -/
  state_inv : z.state.Inv c
  /-- Before a load, and where the program file was missing, the state is the reset state (70_reset_and_hazards.md R200, R205). -/
  untouched : ∀ s, z = .fresh s ∨ z = .notStarted s → s = State.reset
  /-- A load, and a refused one, change memory only (70_reset_and_hazards.md R201, R202; 60_exceptions.md R194). -/
  only_memory : ∀ s, z = .loaded s ∨ z = .loadRefused s → s = { State.reset with mem := s.mem }

/-- A run is safe at a state that is not Faulted. -/
def State.Safe (s : State) : Prop := s.status ≠ .faulted

/-! ### What an instruction writes -/

/-- The operand byte that names the destination register (10_state.md R22), none for an instruction that writes no register. -/
def destination : Instr → Option Byte
  | .ldi r _ => some r
  | .ld a _ => some a
  | .add a _ => some a
  | .addi r _ => some r
  | .inc r => some r
  | .sub a _ => some a
  | .subi r _ => some r
  | .dec r => some r
  | .mul a _ => some a
  | .div a _ => some a
  | .mod a _ => some a
  | .shl a _ => some a
  | .shr a _ => some a
  | .and a _ => some a
  | .or a _ => some a
  | .xor a _ => some a
  | .not r => some r
  | .nop => none
  | .hlt => none
  | .st _ _ => none
  | .prn _ => none
  | .pra _ => none
  | .cmp _ _ => none
  | .jmp _ => none
  | .jeq _ => none
  | .jne _ => none
  | .jlt _ => none
  | .jle _ => none
  | .jgt _ => none
  | .jge _ => none

/-- The address ST stores to, the value of the register its op1 names (41_control_data.md R114); none for a ST whose operands do not
both name registers, which faults, and for an instruction that stores nothing. -/
def storeAddress (c : Config) (s : State) : Instr → Option Byte
  | .st a b =>
    match regOf c a, regOf c b with
    | some ra, some _ => some (s.getReg ra)
    | some _, none => none
    | none, _ => none
  | _ => none

/-- Two flags registers agree on the flags an instruction reads: only a conditional jump reads any (10_state.md R30). -/
def agreeOnFlagsRead (i : Instr) (f g : Flags) : Prop :=
  match i with
  | .jeq _ => f.equal = g.equal
  | .jne _ => f.equal = g.equal
  | .jlt _ => f.less = g.less
  | .jle _ => f.less = g.less ∧ f.equal = g.equal
  | .jgt _ => f.greater = g.greater
  | .jge _ => f.greater = g.greater ∧ f.equal = g.equal
  | _ => True

/-! ### Faults by priority -/

/-- The state after `raise Fault(kind, info)` in a cycle with opcode byte `op` (60_exceptions.md R182), written out. -/
def faultedState (s : State) (kind : FaultKind) (op info : Byte) : State :=
  { s with status := .faulted, fault := some ⟨kind, s.pc, op, info⟩ }

/-- DIVIDE_BY_ZERO applies: a DIV or MOD whose divisor register holds 0 (60_exceptions.md R183). -/
def dividesByZero (c : Config) (s : State) : Instr → Bool
  | .div _ b => (regOf c b).any fun rb => s.getReg rb == 0
  | .mod _ b => (regOf c b).any fun rb => s.getReg rb == 0
  | _ => false

/-- The fault a handler raises and its info, by priority: BAD_REGISTER for op1, for op2, then DIVIDE_BY_ZERO (60_exceptions.md R185). -/
def handlerFault (c : Config) (s : State) (i : Instr) : Option (FaultKind × Byte) :=
  match i.registerOperands.find? fun b => (regOf c b).isNone with
  | some b => some (.badRegister, b)
  | none => if dividesByZero c s i then some (.divideByZero, 0) else none

/-- The fault the cycle at a running state raises: UNKNOWN_OPCODE before any handler's (60_exceptions.md R185). -/
def cycleFault (c : Config) (s : State) : Option (FaultKind × Byte) :=
  match fetchInstr c.table s with
  | none => some (.unknownOpcode, 0)
  | some i => handlerFault c s i

/-! ### The shapes of an instruction's rule

The codes are those of the default table (30_encoding.md R77; log entry 1), and BAD_REGISTER is the default policy (00_scope.md R11;
log entry 10). -/

/-- The operand byte that names register `r` (30_encoding.md R75). -/
def regByte (r : Fin 8) : Byte := BitVec.ofNat 8 r.val

/-- The rule of an F1R instruction on the standard machine: its code; its effect for every register it can name; BAD_REGISTER, with
the byte as info and nothing else changed, for every other operand byte. -/
def OneRegisterRule (op : Byte) (i : Byte → Instr) (effect : State → Fin 8 → State) : Prop :=
  (∀ b, Config.standard.table (i b).mnemonic = op) ∧
  (∀ s r, exec (i (regByte r)) s = .next (effect s r)) ∧
  (∀ s b, 8 ≤ b.toNat → exec (i b) s = .next (faultedState s .badRegister op b))

/-- The rule of an F2RI instruction: as `OneRegisterRule`, with an immediate that may be any byte. -/
def RegisterImmediateRule (op : Byte) (i : Byte → Byte → Instr) (effect : State → Fin 8 → Byte → State) : Prop :=
  (∀ b v, Config.standard.table (i b v).mnemonic = op) ∧
  (∀ s r v, exec (i (regByte r) v) s = .next (effect s r v)) ∧
  (∀ s b v, 8 ≤ b.toNat → exec (i b v) s = .next (faultedState s .badRegister op b))

/-- What an F2RR instruction does when an operand byte names no register: op1 is checked first (60_exceptions.md R185). -/
def TwoRegisterFaults (op : Byte) (i : Byte → Byte → Instr) : Prop :=
  (∀ s a b, 8 ≤ a.toNat → exec (i a b) s = .next (faultedState s .badRegister op a)) ∧
  (∀ s a b, a.toNat < 8 → 8 ≤ b.toNat → exec (i a b) s = .next (faultedState s .badRegister op b))

/-- The rule of an F2RR instruction: its code, its effect for every pair of registers, BAD_REGISTER otherwise. -/
def TwoRegisterRule (op : Byte) (i : Byte → Byte → Instr) (effect : State → Fin 8 → Fin 8 → State) : Prop :=
  (∀ a b, Config.standard.table (i a b).mnemonic = op) ∧
  (∀ s ra rb, exec (i (regByte ra) (regByte rb)) s = .next (effect s ra rb)) ∧
  TwoRegisterFaults op i

/-- The state in which register `r` holds the number `n` modulo 256, pc has moved past `length` bytes, and nothing else has changed. -/
def registerSet (s : State) (r : Fin 8) (n : Nat) (length : Byte) : State :=
  { s with x := s.x.set r (BitVec.ofNat 8 (n % 256)), pc := s.pc + length }

/-- The rule of a conditional jump on the standard machine (45_compare_jump.md R162 to R168). -/
def ConditionalJumpRule (op : Byte) (i : Byte → Instr) (cond : Flags → Prop) : Prop :=
  (∀ b, Config.standard.table (i b).mnemonic = op) ∧
  (∀ s r, cond s.fl → exec (i (regByte r)) s = .next { s with pc := s.getReg r }) ∧
  (∀ s r, ¬ cond s.fl → exec (i (regByte r)) s = .next { s with pc := s.pc + 2 }) ∧
  (∀ s b, 8 ≤ b.toNat → exec (i b) s = .next (faultedState s .badRegister op b))

end Sys2Proof.Machine
end

