-- ==== Sys2Proof/Certificates/Slice0/Obligations.lean ====
section
/-! DEFINITION. The statements for the provers, from the numbered rules of spec/. Helper terms stand in Safety.lean. -/

open Sys2Proof Sys2Proof.Machine

/-! ### Encoding and decoding (30_encoding.md) -/

/-- R70, R74, R78 (derived): for every table that meets R76, every instruction with any operand bytes, and any bytes after it,
decoding what the encoder writes gives the instruction back and leaves the bytes after it. -/
def Obligations.DecodeGivesBackWhatEncodeWrites : Prop :=
  ∀ (t : OpcodeTable) (i : Instr) (rest : List Byte), t.Legal → decode t (encode t i ++ rest) = .ok (i, rest)

/-- R70, R74, R79 (derived): bytes that decode are the encoding of the instruction they give, followed by the bytes left; no bit of
them is ignored. -/
def Obligations.DecodedBytesAreTheEncoding : Prop :=
  ∀ (t : OpcodeTable) (bytes rest : List Byte) (i : Instr), decode t bytes = .ok (i, rest) → bytes = encode t i ++ rest

/-- R78, R80, R94, R99, R180 (derived): resolve gives the mnemonic whose code the byte is, and "unknown" when no mnemonic has that
code; the loop turns "unknown" into the fault UNKNOWN_OPCODE, which changes nothing else. The record's info of 0 is the spec's
choice (D9, log entry 17). -/
def Obligations.ResolveFindsTheMnemonicOfACode : Prop :=
  ∀ (t : OpcodeTable) (op : Byte), t.Legal →
    (∀ m, resolve t op = some m ↔ t m = op) ∧ (resolve t op = none ↔ ∀ m, t m ≠ op) ∧
    ∀ (c : Config) (s : State), c.table = t → s.status = .running → s.memRead s.pc = op → resolve t op = none →
      stepUnder c s = faultedState s .unknownOpcode op 0

/-- R72: the count is `op[7:6]`, at most 2 for every code of a table; a byte with count 3 is in no table and decodes as unknown. -/
def Obligations.CountThreeIsUnknown : Prop :=
  ∀ (t : OpcodeTable) (op : Byte), t.Legal →
    operandCount op = op.toNat / 64 ∧ (∀ m, operandCount (t m) = m.format.operands) ∧
    (operandCount op = 3 ↔ 0xC0 ≤ op.toNat) ∧ (operandCount op = 3 → resolve t op = none)

/-- R77, R83 (derived): the default table meets R76 whatever the open codes are; every code but ADDI's and SUBI's is the one R77
lists; the two open codes have the form 10?0????. The listed codes are the spec's own, from general knowledge (log entry 1). -/
def Obligations.DefaultTableMeetsItsConstraints : Prop :=
  defaultTable.Legal ∧ opcAddi &&& 0xD0 = 0x80 ∧ opcSubi &&& 0xD0 = 0x80 ∧ opcAddi ≠ opcSubi ∧
  Mnemonic.all.map defaultTable =
    [0x00, 0x01, 0x82, 0x83, 0x84, 0x47, 0x48, 0xA0, 0x65, 0xA1, 0x66, 0xA2, 0xA3, 0xA4] ++
    [0xAC, 0xAD, 0xA8, 0xAA, 0xAB, 0x69, 0xA7, 0x54, 0x55, 0x56, 0x58, 0x59, 0x57, 0x5A] ++ [opcAddi, opcSubi]

/-- R77, D3 (derived): the model's two open indices range over exactly the pairs of codes that make the default table legal, so a
statement proved with them holds for every legal choice (log entry 2). -/
def Obligations.OpenCodesRangeOverEveryLegalChoice : Prop :=
  ∀ a b : Byte, (defaultTableWith a b).Legal ↔ ∃ (i : Fin 18) (j : Fin 17), a = addiCode i ∧ b = subiCode i j

/-- R77, R78, R84 (derived): words written out from the table decode to the instructions they stand for, and the bytes the spec
names as unknown are refused. The codes are the spec's default table (D2, log entry 1). -/
def Obligations.WrittenOutWordsDecode : Prop :=
  decodeTableWord 24 0x080082 = some (.ldi 0 8) ∧ decodeTableWord 24 0x000284 = some (.st 2 0) ∧
  decodeTableWord 16 0x0547 = some (.prn 5) ∧ decodeTableWord 24 0x0100A3 = some (.div 0 1) ∧
  decodeTableWord 16 0x0069 = some (.not 0) ∧ decodeTableWord 16 0x035A = some (.jge 3) ∧
  decodeTableWord 8 0x01 = some .hlt ∧ decodeTableWord 8 0xFF = none ∧ decodeTableWord 16 0x0050 = none

/-! ### The cycle (40_cycle.md) -/

/-- R91 to R95, R99 (derived): while Running, when the bytes at pc (wrapping modulo 256) decode to an instruction, step is exec of it
at that very state; exec itself moves pc past the instruction, and step adds nothing. -/
def Obligations.StepRunsTheDecodedInstruction : Prop :=
  ∀ (s : State) (i : Instr) (rest : List Byte), s.status = .running →
    decode Config.standard.table [s.memRead s.pc, s.memRead (s.pc + 1), s.memRead (s.pc + 2)] = .ok (i, rest) →
    step s = exec i s

/-- R94, R99, R180 (derived): an opcode that no mnemonic has makes the cycle Faulted, reporting the opcode and pc; nothing else
changes. The record's info of 0 is the spec's choice (D9, log entry 17). -/
def Obligations.UnknownOpcodeFaults : Prop :=
  ∀ s : State, s.status = .running → (∀ m, Config.standard.table m ≠ s.memRead s.pc) →
    step s = .next { s with status := .faulted, fault := some ⟨.unknownOpcode, s.pc, s.memRead s.pc, 0⟩ }

/-- R100, R207, R200 (derived): no step leaves or changes a Halted or Faulted state, however many are asked for, on any machine; the
host's reset gives a new CPU in the reset state. That a step request to such a machine answers the same state is log entry 5, and
the host's session is log entry 13. -/
def Obligations.TerminalStatesNeverChange : Prop :=
  (∀ (s : State) (k : Nat), s.status = .halted ∨ s.status = .faulted → Host.Core.run core k s = .next s) ∧
  (∀ (c : Config) (s : State) (k : Nat), s.status = .halted ∨ s.status = .faulted → runUnder c k s = s) ∧
  ∀ (c : Config) (z : Session), Session.move c .reset z = some (.fresh State.reset)

/-- R12: a cycle from a Running state with no record has three outcomes and no other: Running with no record, Halted with no record,
or Faulted with a record. -/
def Obligations.CycleHasThreeOutcomes : Prop :=
  ∀ s : State, s.status = .running → s.fault = none →
    ∃ t, step s = .next t ∧
      ((t.status = .running ∧ t.fault = none) ∨ (t.status = .halted ∧ t.fault = none) ∨
        (t.status = .faulted ∧ ∃ r, t.fault = some r))

/-- R97 (derived): after a cycle of the default machine that raised no fault, pc is `(p + n + 1) mod 256` where bit 4 of the opcode
is clear; where it is set, the instruction is a jump and pc is the value its handler gave: the target register's value or p + 2.
That bit 4 set means a jump rests on HLT's default code 0x01 (R77, D2, log entry 1), and that the operand byte is the register's
number on the default policy (D7, log entry 10). -/
def Obligations.ProgramCounterAfterACycle : Prop :=
  ∀ s t : State, s.status = .running → step s = .next t → t.status ≠ .faulted →
    (setsPC (s.memRead s.pc) = false → t.pc.toNat = (s.pc.toNat + operandCount (s.memRead s.pc) + 1) % 256) ∧
    (setsPC (s.memRead s.pc) = true →
      (∃ m, m.isJump = true ∧ resolve Config.standard.table (s.memRead s.pc) = some m) ∧
      ∃ r, s.memRead (s.pc + 1) = regByte r ∧ (t.pc = s.getReg r ∨ t.pc = s.pc + 2))

/-- R98, R111 (derived): a cycle ends Halted exactly when its opcode is HLT's code, on every machine whose table meets R76; the
advance of pc applies to HLT exactly when bit 4 of its code is clear. That pc after HLT follows from bit 4 of its code is the spec's
resolution C1 (D4, log entry 6). -/
def Obligations.OnlyHltHalts : Prop :=
  ∀ (c : Config) (s : State), c.table.Legal → s.status = .running →
    ((stepUnder c s).status = .halted ↔ s.memRead s.pc = c.table .hlt) ∧
    (s.memRead s.pc = c.table .hlt → (stepUnder c s).pc = if setsPC (c.table .hlt) then s.pc else s.pc + 1)

/-- R103 (derived): while every byte of memory is 0, the machine runs forever; pc counts up and wraps. That 0 is NOP is the default
table (D2, log entry 1). -/
def Obligations.ZeroMemoryRunsForever : Prop :=
  ∀ (s : State) (k : Nat), s.status = .running → (∀ a, s.memRead a = 0) →
    Host.Core.run core k s = .next { s with pc := BitVec.ofNat 8 (s.pc.toNat + k) }

/-- R103, R161 (derived): a JMP to its own address changes nothing, so it runs again forever. The code is the spec's default table
(D2, log entry 1). -/
def Obligations.JumpToItselfRunsForever : Prop :=
  ∀ (s : State) (r : Fin 8) (k : Nat), s.status = .running → s.memRead s.pc = 0x54 → s.memRead (s.pc + 1) = regByte r →
    s.getReg r = s.pc → Host.Core.run core k s = .next s

/-! ### Machine control and data movement (41_control_data.md) -/

/-- R110 (derived): NOP (code 0x00) has no effect but `pc <- (p + 1) mod 256`. The code is the spec's default table (D2, log entry
1). -/
def Obligations.NopOnlyAdvances : Prop :=
  Config.standard.table .nop = 0x00 ∧ ∀ s : State, exec .nop s = .next { s with pc := s.pc + 1 }

/-- R111 (derived): HLT makes status Halted; pc becomes p + 1 with the default code 0x01, and under any table stays p exactly when
bit 4 of HLT's code is set; nothing else changes. The code is the spec's default table (D2, log entry 1). That pc follows from bit 4
of the code is the spec's resolution C1 (D4, log entry 6). -/
def Obligations.HltHaltsAfterTheAdvance : Prop :=
  Config.standard.table .hlt = 0x01 ∧
  (∀ s : State, exec .hlt s = .next { s with status := .halted, pc := s.pc + 1 }) ∧
  (∀ (c : Config) (s : State), c.table.Legal →
    handle c .hlt s = { s with status := .halted, pc := if (c.table .hlt).getLsbD 4 then s.pc else s.pc + 1 })

/-- R112 (derived): LDI (code 0x82) writes the immediate byte to the register; pc + 3. The code is the spec's default table (D2, log
entry 1) and BAD_REGISTER its default policy (D7, log entry 10). -/
def Obligations.LdiLoadsTheImmediate : Prop :=
  RegisterImmediateRule 0x82 Instr.ldi fun s r v => { s with x := s.x.set r v, pc := s.pc + 3 }

/-- R113 (derived): LD (code 0x83) writes the byte at the address in register B, read before the write, to register A; pc + 3. The
code is the spec's default table (D2, log entry 1) and BAD_REGISTER its default policy (D7, log entry 10). -/
def Obligations.LdLoadsTheAddressedByte : Prop :=
  TwoRegisterRule 0x83 Instr.ld fun s ra rb => { s with x := s.x.set ra (s.memRead (s.getReg rb)), pc := s.pc + 3 }

/-- R114 (derived): ST (code 0x84) writes register B to the address in register A: that byte reads as register B, every other byte
of memory reads as before, pc + 3, and nothing else changes; BAD_REGISTER as in R184, op1 first. The premise on memory is the
canonical form, which every step keeps (EveryStepKeepsTheInvariant). The code is the spec's default table (D2, log entry 1) and
BAD_REGISTER its default policy (D7, log entry 10). -/
def Obligations.StStoresOneByte : Prop :=
  (∀ a b, Config.standard.table (Instr.st a b).mnemonic = 0x84) ∧
  (∀ (s : State) (ra rb : Fin 8), s.mem.wf →
    storeAddress Config.standard s (.st (regByte ra) (regByte rb)) = some (s.getReg ra) ∧
    ∃ t, exec (.st (regByte ra) (regByte rb)) s = .next t ∧ t.memRead (s.getReg ra) = s.getReg rb ∧
      (∀ e, storeAddress Config.standard s (.st (regByte ra) (regByte rb)) ≠ some e → t.memRead e = s.memRead e) ∧
      t = { s with mem := t.mem, pc := s.pc + 3 }) ∧
  TwoRegisterFaults 0x84 Instr.st

/-- R59 (derived): a LD of the address a ST has just stored to gives the byte stored, whatever registers name the address and take the
byte. -/
def Obligations.LoadAfterStoreGivesTheStoredByte : Prop :=
  ∀ (s t u : State) (ra rb rc rd : Fin 8), s.mem.wf → exec (.st (regByte ra) (regByte rb)) s = .next t →
    s.getReg rd = s.getReg ra → exec (.ld (regByte rc) (regByte rd)) t = .next u → u.getReg rc = s.getReg rb

/-! ### Output (42_io.md) -/

/-- R120, R121 (derived): PRN (0x47) appends Dec(x[r]) and PRA (0x48) appends Char(x[r]) to the output channel; pc + 2. The codes
are the spec's default table (D2, log entry 1) and BAD_REGISTER its default policy (D7, log entry 10). -/
def Obligations.PrintingAppendsOneEvent : Prop :=
  OneRegisterRule 0x47 Instr.prn (fun s r => { s with out := s.out ++ [.dec (s.getReg r)], pc := s.pc + 2 }) ∧
  OneRegisterRule 0x48 Instr.pra (fun s r => { s with out := s.out ++ [.char (s.getReg r)], pc := s.pc + 2 })

/-- R122 (derived): Dec(v) stands for the decimal digits of v, with no leading zero and no sign; Char(v) for the one character with
that code point. The text is the host's concern (D11, log entry 11). -/
def Obligations.EventTextIsDecimalOrCharacter : Prop :=
  ∀ v : Byte,
    (∃ ds : List (Fin 10), (OutEvent.dec v).text = ds.map (fun d => Char.ofNat ('0'.toNat + d.val)) ∧
      ds.foldl (fun n d => 10 * n + d.val) 0 = v.toNat ∧ ds ≠ [] ∧ (ds.head? = some 0 → ds = [0])) ∧
    ∃ ch : Char, (OutEvent.char v).text = [ch] ∧ ch.toNat = v.toNat

/-! ### Arithmetic (43_arith.md) -/

/-- R130, R133, R136 (derived): ADD, SUB and MUL write the sum, the difference and the product modulo 256 to register A; pc + 3; no
flag and nothing else changes. The codes are the spec's default table (D2, log entry 1) and BAD_REGISTER its default policy (D7, log
entry 10). That SUB is masked is the spec's choice (C2, D5, log entry 7). -/
def Obligations.AddSubMulWrapModulo256 : Prop :=
  TwoRegisterRule 0xA0 Instr.add (fun s ra rb => registerSet s ra ((s.getReg ra).toNat + (s.getReg rb).toNat) 3) ∧
  TwoRegisterRule 0xA1 Instr.sub (fun s ra rb => registerSet s ra ((((s.getReg ra).toNat : Int) - (s.getReg rb).toNat) % 256).toNat 3) ∧
  TwoRegisterRule 0xA2 Instr.mul (fun s ra rb => registerSet s ra ((s.getReg ra).toNat * (s.getReg rb).toNat) 3)

/-- R131, R134 (derived): ADDI and SUBI add and subtract the unsigned immediate modulo 256; pc + 3, whatever their open codes are.
BAD_REGISTER is the default policy (D7, log entry 10); the codes are open (D3, log entry 2). -/
def Obligations.AddiSubiWrapModulo256 : Prop :=
  RegisterImmediateRule opcAddi Instr.addi (fun s r v => registerSet s r ((s.getReg r).toNat + v.toNat) 3) ∧
  RegisterImmediateRule opcSubi Instr.subi (fun s r v => registerSet s r ((((s.getReg r).toNat : Int) - v.toNat) % 256).toNat 3)

/-- R132, R135 (derived): INC (0x65) and DEC (0x66) add and subtract 1 modulo 256; pc + 2. The codes are the spec's default table
(D2, log entry 1) and BAD_REGISTER its default policy (D7, log entry 10). -/
def Obligations.IncDecWrapModulo256 : Prop :=
  OneRegisterRule 0x65 Instr.inc (fun s r => registerSet s r ((s.getReg r).toNat + 1) 2) ∧
  OneRegisterRule 0x66 Instr.dec (fun s r => registerSet s r ((((s.getReg r).toNat : Int) - 1) % 256).toNat 2)

/-- R137, R138 (derived): DIV (0xA3) and MOD (0xA4) write the quotient and the remainder of unsigned values when the divisor is not
0, and raise DIVIDE_BY_ZERO, writing no register and leaving pc, when it is; BAD_REGISTER comes first. The codes are the spec's
default table (D2, log entry 1) and BAD_REGISTER its default policy (D7, log entry 10). That a fault writes nothing is the spec's
choice (D6, log entry 8). -/
def Obligations.DivModDivideOrFault : Prop :=
  (∀ a b, Config.standard.table (Instr.div a b).mnemonic = 0xA3 ∧ Config.standard.table (Instr.mod a b).mnemonic = 0xA4) ∧
  (∀ (s : State) (ra rb : Fin 8), s.getReg rb ≠ 0 →
    exec (.div (regByte ra) (regByte rb)) s = .next (registerSet s ra ((s.getReg ra).toNat / (s.getReg rb).toNat) 3) ∧
    exec (.mod (regByte ra) (regByte rb)) s = .next (registerSet s ra ((s.getReg ra).toNat % (s.getReg rb).toNat) 3)) ∧
  (∀ (s : State) (ra rb : Fin 8), s.getReg rb = 0 →
    exec (.div (regByte ra) (regByte rb)) s = .next (faultedState s .divideByZero 0xA3 0) ∧
    exec (.mod (regByte ra) (regByte rb)) s = .next (faultedState s .divideByZero 0xA4 0)) ∧
  TwoRegisterFaults 0xA3 Instr.div ∧ TwoRegisterFaults 0xA4 Instr.mod

/-- R139 (derived): after DIV and MOD of the same registers, quotient times divisor plus remainder is the dividend, and the remainder
is below the divisor. -/
def Obligations.QuotientAndRemainderRecompose : Prop :=
  ∀ (s t u : State) (ra rb : Fin 8), s.getReg rb ≠ 0 →
    exec (.div (regByte ra) (regByte rb)) s = .next t → exec (.mod (regByte ra) (regByte rb)) s = .next u →
    (t.getReg ra).toNat * (s.getReg rb).toNat + (u.getReg ra).toNat = (s.getReg ra).toNat ∧ (u.getReg ra).toNat < (s.getReg rb).toNat

/-! ### Shifts and logic (44_logic_shift.md) -/

/-- R150, R151 (derived): SHL (0xAC) and SHR (0xAD) shift by the whole value of register B: times 2^n modulo 256, and the floor of
division by 2^n; pc + 3. The codes are the spec's default table (D2, log entry 1) and BAD_REGISTER its default policy (D7, log entry
10). The whole amount is the spec's reading (D28, log entry 20). -/
def Obligations.ShiftsUseTheWholeAmount : Prop :=
  TwoRegisterRule 0xAC Instr.shl (fun s ra rb => registerSet s ra ((s.getReg ra).toNat * 2 ^ (s.getReg rb).toNat) 3) ∧
  TwoRegisterRule 0xAD Instr.shr (fun s ra rb => registerSet s ra ((s.getReg ra).toNat / 2 ^ (s.getReg rb).toNat) 3)

/-- R152 to R155 (derived): AND (0xA8), OR (0xAA), XOR (0xAB) and NOT (0x69) combine the registers bit by bit; NOT gives 255 minus
the value. The codes are the spec's default table (D2, log entry 1) and BAD_REGISTER its default policy (D7, log entry 10). -/
def Obligations.LogicWorksBitByBit : Prop :=
  TwoRegisterRule 0xA8 Instr.and (fun s ra rb => registerSet s ra ((s.getReg ra).toNat &&& (s.getReg rb).toNat) 3) ∧
  TwoRegisterRule 0xAA Instr.or (fun s ra rb => registerSet s ra ((s.getReg ra).toNat ||| (s.getReg rb).toNat) 3) ∧
  TwoRegisterRule 0xAB Instr.xor (fun s ra rb => registerSet s ra ((s.getReg ra).toNat ^^^ (s.getReg rb).toNat) 3) ∧
  OneRegisterRule 0x69 Instr.not (fun s r => registerSet s r (255 - (s.getReg r).toNat) 2)

/-! ### Compare and jumps (45_compare_jump.md) -/

/-- R160 (derived): CMP (0xA7) sets Less, Greater and Equal from the unsigned order of the two registers, whatever the flags were;
exactly one is true afterwards; pc + 3; on a fault the flags keep their values. The code is the spec's default table (D2, log entry
1) and BAD_REGISTER its default policy (D7, log entry 10). -/
def Obligations.CmpSetsExactlyOneFlag : Prop :=
  TwoRegisterRule 0xA7 Instr.cmp (fun s ra rb =>
    { s with
      fl := if (s.getReg ra).toNat < (s.getReg rb).toNat then ⟨false, false, true⟩
        else if (s.getReg rb).toNat < (s.getReg ra).toNat then ⟨false, true, false⟩ else ⟨true, false, false⟩
      pc := s.pc + 3 })

/-- R161 (derived): JMP (0x54) sets pc to the register's value and changes nothing else. The code is the spec's default table (D2,
log entry 1) and BAD_REGISTER its default policy (D7, log entry 10). -/
def Obligations.JmpGoesToTheRegister : Prop :=
  OneRegisterRule 0x54 Instr.jmp fun s r => { s with pc := s.getReg r }

/-- R162 to R167 (derived): each conditional jump goes to the register's value when its condition on the flags holds and to p + 2
when it does not; BAD_REGISTER whether or not the jump would be taken; nothing else changes. The codes are the spec's default table
(D2, log entry 1) and BAD_REGISTER its default policy (D7, log entry 10). -/
def Obligations.ConditionalJumpsFollowTheFlags : Prop :=
  ConditionalJumpRule 0x55 Instr.jeq (fun f => f.equal = true) ∧
  ConditionalJumpRule 0x56 Instr.jne (fun f => f.equal = false) ∧
  ConditionalJumpRule 0x58 Instr.jlt (fun f => f.less = true) ∧
  ConditionalJumpRule 0x59 Instr.jle (fun f => f.less = true ∨ f.equal = true) ∧
  ConditionalJumpRule 0x57 Instr.jgt (fun f => f.greater = true) ∧
  ConditionalJumpRule 0x5A Instr.jge (fun f => f.greater = true ∨ f.equal = true)

/-! ### Frames over all instructions (10_state.md) -/

/-- R29: only CMP writes the flags; after a CMP exactly one flag is true; after reset, and so before the first CMP, all are false. -/
def Obligations.OnlyCmpWritesTheFlags : Prop :=
  (∀ (i : Instr) (s t : State), exec i s = .next t → (∀ a b, i ≠ .cmp a b) → t.fl = s.fl) ∧
  (∀ (ra rb : Fin 8) (s t : State), exec (.cmp (regByte ra) (regByte rb)) s = .next t →
    t.fl = ⟨true, false, false⟩ ∨ t.fl = ⟨false, true, false⟩ ∨ t.fl = ⟨false, false, true⟩) ∧
  State.reset.fl = ⟨false, false, false⟩

/-- R30 (derived): the flags are read only by the conditional jumps, each the flags R30 names: where the flags an instruction reads are
the same, and for every other instruction whatever the flags are, it does the same to the rest of the state. -/
def Obligations.OnlyConditionalJumpsReadTheFlags : Prop :=
  ∀ (i : Instr) (s t u : State) (f : Flags), agreeOnFlagsRead i s.fl f →
    exec i s = .next t → exec i { s with fl := f } = .next u → { u with fl := t.fl } = t

/-- R22 (derived): a register that an instruction changes is the one its op1 names, and the instruction is one of those R22 lists as
writing a register; every other register keeps its value. -/
def Obligations.OnlyTheDestinationRegisterChanges : Prop :=
  ∀ (i : Instr) (s t : State) (r : Fin 8), exec i s = .next t → t.getReg r ≠ s.getReg r →
    ∃ b, destination i = some b ∧ regOf Config.standard b = some r

/-- R50, R51, R114, R182 (derived): every byte of memory reads as before except the one at the address ST stores to; an instruction
that stores nothing, a ST that faults among them, leaves every byte. That a fault writes nothing is the spec's choice (D6, log entry
8). -/
def Obligations.MemoryChangesOnlyWhereStStores : Prop :=
  ∀ (i : Instr) (s t : State) (e : Byte), s.mem.wf → exec i s = .next t →
    storeAddress Config.standard s i ≠ some e → t.memRead e = s.memRead e

/-- R36 (derived): the output channel only grows at its end, by at most one event; only PRN adds Dec and only PRA adds Char; after
reset it is empty. The event list is the spec's form (D11, log entry 11). -/
def Obligations.OutputIsOnlyAppendedTo : Prop :=
  (∀ (i : Instr) (s t : State), exec i s = .next t →
    t.out = s.out ∨
      (∃ b r, i = .prn b ∧ regOf Config.standard b = some r ∧ t.out = s.out ++ [.dec (s.getReg r)]) ∨
      (∃ b r, i = .pra b ∧ regOf Config.standard b = some r ∧ t.out = s.out ++ [.char (s.getReg r)])) ∧
  State.reset.out = []

/-- R95, R22, R114, R182 (derived): an instruction that raises no fault leaves everything but pc as it was, except for its
destination register, or the byte at the address ST stores to, which takes the value of the register op2 names, or, for CMP, the
flags, or, for PRN and PRA, one event, or, for HLT, status; one that raises a fault writes status and the record only. That a fault
writes nothing else is the spec's choice (D6, log entry 8). -/
def Obligations.HandlerWritesAtMostOneThing : Prop :=
  ∀ (i : Instr) (s : State),
    match handlerFault Config.standard s i with
    | some (kind, info) => exec i s = .next (faultedState s kind (Config.standard.table i.mnemonic) info)
    | none => ∃ pc : Byte,
        exec i s = .next { s with pc := pc } ∨
        (∃ (b : Byte) (r : Fin 8) (v : Byte), destination i = some b ∧ regOf Config.standard b = some r ∧
          exec i s = .next { s with pc := pc, x := s.x.set r v }) ∨
        (∃ (a b e : Byte) (r : Fin 8), i = .st a b ∧ storeAddress Config.standard s i = some e ∧
          regOf Config.standard b = some r ∧ exec i s = .next { s with pc := pc, mem := s.mem.write e.toNat (s.getReg r) }) ∨
        (∃ (a b : Byte) (f : Flags), i = .cmp a b ∧ exec i s = .next { s with pc := pc, fl := f }) ∨
        (∃ (b : Byte) (r : Fin 8) (e : OutEvent), regOf Config.standard b = some r ∧
          ((i = .prn b ∧ e = .dec (s.getReg r)) ∨ (i = .pra b ∧ e = .char (s.getReg r))) ∧
          exec i s = .next { s with pc := pc, out := s.out ++ [e] }) ∨
        (i = .hlt ∧ exec i s = .next { s with pc := pc, status := .halted })

/-! ### Faults (60_exceptions.md) -/

/-- R185 (derived): at most one fault is raised per cycle, the first that applies in the order UNKNOWN_OPCODE, BAD_REGISTER for op1,
BAD_REGISTER for op2, DIVIDE_BY_ZERO; where none applies none is raised. The order of the last three is the spec's choice (D7, log
entry 10). -/
def Obligations.FirstFaultByPriority : Prop :=
  ∀ s : State, s.status = .running →
    match cycleFault Config.standard s with
    | some (kind, info) => step s = .next (faultedState s kind (s.memRead s.pc) info)
    | none => ∃ t, step s = .next t ∧ t.status ≠ .faulted ∧ t.fault = s.fault

/-- R182 (derived): a cycle that faults writes status and the record, with pc and the opcode byte of the faulting instruction, and
nothing else. That nothing else is written is the spec's choice (D6, log entry 8). -/
def Obligations.FaultsArePrecise : Prop :=
  ∀ s t : State, s.status = .running → step s = .next t → t.status = .faulted →
    ∃ kind info, t = { s with
      status := .faulted, fault := some { kind := kind, pc := s.pc, opcode := s.memRead s.pc, info := info } }

/-- R184 (derived): under `fault` every instruction whose register operand byte is 8 or more raises BAD_REGISTER, with the first
such byte as info, whether or not a jump would be taken, and an immediate never does; under `low3` it is never raised, on any
machine. The policy is the spec's parameter (D7, log entry 10). -/
def Obligations.BadRegisterDependsOnThePolicy : Prop :=
  (∀ (c : Config) (i : Instr) (s : State) (b : Byte), c.regIndexPolicy = .fault →
    (i.registerOperands.find? fun b => decide (8 ≤ b.toNat)) = some b →
    handle c i s = faultedState s .badRegister (c.table i.mnemonic) b) ∧
  (∀ (c : Config) (i : Instr) (s : State) (r : FaultRecord), i.wellFormed = true ∨ c.regIndexPolicy = .low3 →
    (handle c i s).fault = some r → r.kind = .badRegister → s.fault = some r)

/-- R11, R75 (derived): under `low3` an instruction does exactly what it does with each register operand replaced by its low three
bits. The policy is the spec's parameter (D7, log entry 10). -/
def Obligations.Low3UsesTheLowBits : Prop :=
  ∀ (c : Config) (s : State) (m : Mnemonic) (op1 op2 : Byte), c.regIndexPolicy = .low3 →
    handle c (m.instr op1 op2) s =
      handle c (m.instr (op1 &&& 7) (if m.format = .F2RI then op2 else op2 &&& 7)) s

/-- R76, R83 (derived): what an instruction does depends on the table only through R76: under two tables that meet R76 and agree on bit
4 of HLT's code, with the same policy, every instruction makes the same state, or the same fault with the code of its own table in
the record. -/
def Obligations.HandlersDependOnTheTableOnlyInTheRecord : Prop :=
  ∀ (c d : Config) (i : Instr) (s : State), c.table.Legal → d.table.Legal → setsPC (c.table .hlt) = setsPC (d.table .hlt) →
    c.regIndexPolicy = d.regIndexPolicy →
    handle c i s = handle d i s ∨ ∃ kind info, handle c i s = faultedState s kind (c.table i.mnemonic) info ∧
      handle d i s = faultedState s kind (d.table i.mnemonic) info

/-! ### Invariants -/

/-- Derived from R29, R33, R35, R180, R182: on every machine whose table meets R76, every step from a state that meets the invariant
answers a state that meets it: memory canonical, at most one flag, a record exactly when Faulted, and a record that is true of the
machine that stopped. That a record is true of the state that stopped rests on D6 (log entry 8). -/
def Obligations.EveryStepKeepsTheInvariant : Prop :=
  (∀ s t : State, s.Inv Config.standard → step s = .next t → t.Inv Config.standard) ∧
  ∀ (c : Config) (s : State), c.table.Legal → s.Inv c → (stepUnder c s).Inv c

/-- The reset state meets the invariant of every machine. -/
def Obligations.ResetMeetsTheInvariant : Prop :=
  ∀ c : Config, State.reset.Inv c

/-- R6, R99 (derived): the step the host runs is the configured step at the default parameters, and every step answers a next state.
That a step request to a stopped machine answers the same state is log entry 5. -/
def Obligations.StepIsTheConfiguredStepAtTheDefaults : Prop :=
  ∀ (s : State) (k : Nat), step s = .next (stepUnder Config.standard s) ∧
    Host.Core.run core k s = .next (runUnder Config.standard k s)

/-- R63, R210 (derived): a ST in one cycle is seen by the next cycle's fetch, at every address; the ST itself ran with the bytes
read before it stored. ST's code is the default table (D2, log entry 1). -/
def Obligations.StoreIsSeenByTheNextFetch : Prop :=
  ∀ (s : State) (ra rb : Fin 8), s.status = .running → s.mem.wf →
    s.window = [0x84, regByte ra, regByte rb] →
    ∃ t, step s = .next t ∧ t.pc = s.pc + 3 ∧
      t.window = [t.pc, t.pc + 1, t.pc + 2].map fun e => if e = (s.getReg ra) then (s.getReg rb) else s.memRead e

/-! ### Reset, loading, the host (70_reset_and_hazards.md) -/

/-- R40: the state after reset. -/
def Obligations.ResetStateIsAllZero : Prop :=
  (∀ r : Fin 8, State.reset.getReg r = 0) ∧ State.reset.pc = 0 ∧ State.reset.fl = ⟨false, false, false⟩ ∧
  (∀ a, State.reset.memRead a = 0) ∧ State.reset.status = .running ∧ State.reset.fault = none ∧ State.reset.out = [] ∧
  core.reset = State.reset

/-- R201, R202 (derived): a load of at most 256 bytes puts byte i at address i, leaves every byte after them and everything else as it
was, and keeps memory canonical; a longer one is refused. -/
def Obligations.LoadWritesExactlyItsBytes : Prop :=
  ∀ (s : State) (bytes : List Byte), s.mem.wf →
    (bytes.length ≤ 256 → ∃ t, load bytes s = some t ∧ t.mem.wf ∧ t = { s with mem := t.mem } ∧
      ∀ a : Byte, t.memRead a = bytes.getD a.toNat (s.memRead a)) ∧
    (256 < bytes.length → load bytes s = none)

/-- R194, R201, R202, R208 (derived): the host can load only after reset and before the first cycle; a refused load leaves all but
memory as after reset, then no cycle runs, every move but reset is refused or changes nothing, and a reset leads on. The protocol is
the spec's choice (D13) and, where the spec is silent, the model's (log entry 13). -/
def Obligations.HostLoadsOnceBeforeTheFirstCycle : Prop :=
  ∀ (c : Config) (ms : List HostMove) (bytes : List Byte) (z z' : Session),
    Session.moves c ms (.fresh State.reset) = some z → Session.move c (.load bytes) z = some z' →
    z = .fresh State.reset ∧
      (bytes.length ≤ 256 → ∃ t, load bytes State.reset = some t ∧ z' = .loaded t) ∧
      (256 < bytes.length →
        (∃ t, z' = .loadRefused t ∧ t = { State.reset with mem := t.mem }) ∧
        Session.move c .step z' = none ∧ Session.move c .reset z' = some (.fresh State.reset) ∧
        ∀ m, m ≠ .reset → Session.move c m z' = none ∨ Session.move c m z' = some z')

/-- R194, R201, R202, R205, R207, R208 (derived): every move of the host on a session that meets the session's invariant gives one
that meets it: the state meets the invariant of states, it is the reset state before a load or where the program file was missing,
and a load or a refused one has changed memory only; the session after reset meets it, and so does every session the host's moves
lead to. The moves are those of log entry 13. -/
def Obligations.EverySessionKeepsTheInvariant : Prop :=
  (∀ (c : Config) (m : HostMove) (z z' : Session), c.table.Legal → z.Inv c → Session.move c m z = some z' → z'.Inv c) ∧
  (∀ c : Config, (Session.fresh State.reset).Inv c) ∧
  ∀ (c : Config) (ms : List HostMove) (z : Session), c.table.Legal →
    Session.moves c ms (.fresh State.reset) = some z → z.Inv c

/-- R193 (derived): the trace port shows pc, the flags byte, the three bytes at pc, pc + 1 and pc + 2 modulo 256, and the registers.
The flags byte is 0b00000LGE (R32). The layout of the flags byte and the wrap are the spec's choices (D8, log entry 16; D18, log
entry 18). -/
def Obligations.TraceShowsTheStatedValues : Prop :=
  ∀ s : State, s.trace.pc = s.pc ∧ s.trace.x = s.x ∧
    (s.trace.flByte.getLsbD 0 = s.fl.equal ∧ s.trace.flByte.getLsbD 1 = s.fl.greater ∧ s.trace.flByte.getLsbD 2 = s.fl.less ∧
      s.trace.flByte.toNat < 8) ∧
    [s.trace.next0, s.trace.next1, s.trace.next2] =
      [0, 1, 2].map fun k => s.memRead (BitVec.ofNat 8 ((s.pc.toNat + k) % 256))

/-- R207, R34, R35 (derived): the status port is 0, 1 or 2, and in a state that meets the invariant the fault kind port is 1, 2 or 3
when status is Faulted and 0 otherwise; the other fault ports show the record, and without one fault_info is 0 (fault_pc and
fault_opcode are free values there, log entry 12, of which this says nothing); a cycle shows an output event exactly when it
appended one. The numbers are the spec's naming (D9, D10, log entry 17). -/
def Obligations.PortsShowStatusFaultAndEvent : Prop :=
  ∀ (c : Config) (s : State), s.Inv c →
    (s.ports.status = match s.status with | .running => 0 | .halted => 1 | .faulted => 2) ∧
    (s.ports.faultKind ≠ 0 ↔ s.status = .faulted) ∧
    (∀ r, s.fault = some r → s.ports.faultPc = r.pc ∧ s.ports.faultOpcode = r.opcode ∧ s.ports.faultInfo = r.info ∧
      s.ports.faultKind = match r.kind with | .unknownOpcode => 1 | .divideByZero => 2 | .badRegister => 3) ∧
    (s.fault = none → s.ports.faultKind = 0 ∧ s.ports.faultInfo = 0) ∧
    (match outEvent s (stepUnder c s) with
      | some e => (stepUnder c s).out = s.out ++ [e]
      | none => (stepUnder c s).out = s.out)

/-- R204 (derived): in a line of program text a comment and white space change nothing. White space is what the model takes it to be
(log entry 14). -/
def Obligations.CommentsAndSpacesDoNotCount : Prop :=
  ∀ (w : WideLiteral) (base : Nat) (before after comment : List Char) (space : Char), '#' ∉ before → space.isWhitespace = true →
    parseLine w base (before ++ space :: after) = parseLine w base (before ++ after) ∧
    parseLine w base (before ++ '#' :: comment) = parseLine w base before
end

