-- ==== Sys2Proof/Laws/Decode.lean ====
section
/-! SUPPORT. The opcode table's small lemmas (spec 30_encoding.md R72, R73, R76, R77). -/

namespace Sys2Proof

/-- The list of mnemonics is complete. -/
theorem Mnemonic.mem_all (m : Mnemonic) : m ∈ Mnemonic.all := by
  cases m <;> decide

/-- The mnemonic that resolve answers has that code. -/
theorem resolve_code {t : OpcodeTable} {op : Byte} {m : Mnemonic} (h : resolve t op = some m) : t m = op := by
  have := List.find?_some h
  simp at this
  exact this.2

/-- A code of a legal table has its instruction's operand count. -/
theorem OpcodeTable.Legal.count {t : OpcodeTable} (h : t.Legal) (m : Mnemonic) :
    operandCount (t m) = m.format.operands := by
  have := h.1 m m.mem_all
  simp [Mnemonic.admits] at this
  exact this.1

/-- Bit 4 of a code of a legal table is set exactly for a jump, HLT apart. -/
theorem OpcodeTable.Legal.bit4 {t : OpcodeTable} (h : t.Legal) {m : Mnemonic} (hm : m ≠ .hlt) : setsPC (t m) = m.isJump := by
  have := h.1 m m.mem_all
  simp [Mnemonic.admits, hm] at this
  exact this.2

/-- Both open codes have two operands and bit 4 clear, whichever they are. -/
theorem addiCode_fields (i : Fin 18) : operandCount (addiCode i) = 2 ∧ setsPC (addiCode i) = false := by
  revert i; decide

/-- As `addiCode_fields`, for SUBI. -/
theorem subiCode_fields (i : Fin 18) (j : Fin 17) : operandCount (subiCode i j) = 2 ∧ setsPC (subiCode i j) = false := by
  revert i j; decide

end Sys2Proof
end

