-- ==== Sys2Proof/Laws/Memory.lean ====
section
/-! SUPPORT. The laws of memory: what a read gives after a write (spec 20_memory.md R59), and that every memory operation keeps the
canonical form. -/

namespace Sys2Proof.Machine

/-- An address below every listed one reads as unlisted. -/
theorem Memory.read_of_lt {m : Memory} {a : Nat} (h : ∀ e ∈ m, a < e.1) : m.read a = unlistedByte := by
  induction m with
  | nil => rfl
  | cons e rest ih =>
    obtain ⟨k, w⟩ := e
    have hk : a < k := h (k, w) (by simp)
    simp only [Memory.read]
    rw [if_neg (by omega), ih fun e he => h e (by simp [he])]

/-- A canonical list's tail is canonical. -/
theorem Memory.wf_tail {e : Host.Cell} {rest : Memory} (h : Memory.wf (e :: rest)) : Memory.wf rest :=
  ⟨(List.pairwise_cons.mp h.1).2, fun f hf => h.2 f (by simp [hf])⟩

/-- A canonical list's head lies below its tail. -/
theorem Memory.head_lt {e : Host.Cell} {rest : Memory} (h : Memory.wf (e :: rest)) : ∀ f ∈ rest, e.1 < f.1 :=
  (List.pairwise_cons.mp h.1).1

/-- A read of the address just written gives the value written. -/
theorem Memory.read_write_same {m : Memory} (h : m.wf) (a : Nat) (v : Byte) : (m.write a v).read a = v := by
  induction m with
  | nil =>
    by_cases hv : v = unlistedByte <;> simp [Memory.write, Memory.read, hv]
  | cons e rest ih =>
    obtain ⟨k, w⟩ := e
    have hlt := Memory.head_lt h
    by_cases h1 : a < k
    · by_cases hv : v = unlistedByte
      · have hr : Memory.read ((k, w) :: rest) a = unlistedByte := Memory.read_of_lt (by
          intro f hf
          rcases List.mem_cons.mp hf with rfl | hf
          · exact h1
          · exact lt_trans h1 (hlt f hf))
        simp [Memory.write, h1, hv, hr]
      · simp [Memory.write, h1, hv, Memory.read]
    · by_cases h2 : a = k
      · subst h2
        by_cases hv : v = unlistedByte
        · simp [Memory.write, hv, Memory.read_of_lt hlt]
        · simp [Memory.write, hv, Memory.read]
      · have h3 : k ≠ a := fun hk => h2 hk.symm
        simp [Memory.write, h1, h2, Memory.read, h3, ih (Memory.wf_tail h)]

/-- A write leaves every other address as it was. -/
theorem Memory.read_write_other {m : Memory} (h : m.wf) {a b : Nat} (v : Byte) (hab : b ≠ a) :
    (m.write a v).read b = m.read b := by
  induction m with
  | nil =>
    by_cases hv : v = unlistedByte <;> simp [Memory.write, Memory.read, hv, hab.symm]
  | cons e rest ih =>
    obtain ⟨k, w⟩ := e
    by_cases h1 : a < k
    · by_cases hv : v = unlistedByte <;> simp [Memory.write, h1, hv, Memory.read, hab.symm]
    · by_cases h2 : a = k
      · subst h2
        by_cases hv : v = unlistedByte <;> simp [Memory.write, hv, Memory.read, hab.symm]
      · by_cases h3 : k = b
        · subst h3
          simp [Memory.write, h1, h2, Memory.read]
        · simp [Memory.write, h1, h2, Memory.read, h3, ih (Memory.wf_tail h)]

/-- Every entry of a written list is the one written, with a value that is listed, or was there before. -/
theorem Memory.mem_write {m : Memory} {a : Nat} {v : Byte} {e : Host.Cell} (h : e ∈ m.write a v) :
    (e = (a, v) ∧ v ≠ unlistedByte) ∨ e ∈ m := by
  induction m with
  | nil =>
    by_cases hv : v = unlistedByte
    · simp [Memory.write, hv] at h
    · simp only [Memory.write, hv, if_false, List.mem_singleton] at h
      exact .inl ⟨h, hv⟩
  | cons f rest ih =>
    obtain ⟨k, w⟩ := f
    by_cases h1 : a < k
    · by_cases hv : v = unlistedByte
      · simp only [Memory.write, h1, hv, if_true] at h
        exact .inr h
      · simp only [Memory.write, h1, hv, if_true, if_false] at h
        rcases List.mem_cons.mp h with h | h
        · exact .inl ⟨h, hv⟩
        · exact .inr h
    · by_cases h2 : a = k
      · by_cases hv : v = unlistedByte
        · simp only [Memory.write, h2, hv, if_true, lt_irrefl, if_false] at h
          exact .inr (List.mem_cons_of_mem _ h)
        · simp only [Memory.write, h2, hv, if_true, if_false, lt_irrefl] at h
          rcases List.mem_cons.mp h with h | h
          · exact .inl ⟨by rw [h, h2], hv⟩
          · exact .inr (List.mem_cons_of_mem _ h)
      · simp only [Memory.write, h1, h2, if_false] at h
        rcases List.mem_cons.mp h with h | h
        · exact .inr (by simp [h])
        · rcases ih h with h | h
          · exact .inl h
          · exact .inr (List.mem_cons_of_mem _ h)

/-- A write below 256 keeps the canonical form. -/
theorem Memory.write_wf {m : Memory} (h : m.wf) {a : Nat} (ha : a < 256) (v : Byte) : (m.write a v).wf := by
  refine ⟨?_, fun e he => ?_⟩
  · induction m with
    | nil => by_cases hv : v = unlistedByte <;> simp [Memory.write, hv]
    | cons f rest ih =>
      obtain ⟨k, w⟩ := f
      have hlt := Memory.head_lt h
      by_cases h1 : a < k
      · by_cases hv : v = unlistedByte
        · simpa [Memory.write, h1, hv] using h.1
        · simp only [Memory.write, h1, hv, if_true, if_false]
          refine List.pairwise_cons.mpr ⟨fun f hf => ?_, h.1⟩
          rcases List.mem_cons.mp hf with rfl | hf
          · exact h1
          · exact lt_trans h1 (hlt f hf)
      · by_cases h2 : a = k
        · subst h2
          by_cases hv : v = unlistedByte
          · simpa [Memory.write, hv] using (Memory.wf_tail h).1
          · simp only [Memory.write, hv, lt_irrefl, if_true, if_false]
            exact List.pairwise_cons.mpr ⟨hlt, (Memory.wf_tail h).1⟩
        · simp only [Memory.write, h1, h2, if_false]
          refine List.pairwise_cons.mpr ⟨fun f hf => ?_, ih (Memory.wf_tail h)⟩
          rcases Memory.mem_write hf with ⟨rfl, -⟩ | hf
          · exact lt_of_le_of_ne (Nat.le_of_not_lt h1) fun hk => h2 hk.symm
          · exact hlt f hf
  · rcases Memory.mem_write he with ⟨rfl, hv⟩ | he
    · exact ⟨ha, hv⟩
    · exact h.2 e he

/-- Writing consecutive bytes keeps the canonical form. -/
theorem Memory.writeBytes_wf {m : Memory} (h : m.wf) (a : Byte) (bytes : List Byte) : (m.writeBytes a bytes).wf := by
  induction bytes generalizing m a with
  | nil => exact h
  | cons v vs ih => exact ih (Memory.write_wf h a.isLt v) (a + 1)

/-- One byte read after one byte written, at addresses of the machine. -/
theorem Memory.read_write {m : Memory} (h : m.wf) (a v e : Byte) :
    (m.write a.toNat v).read e.toNat = if e = a then v else m.read e.toNat := by
  by_cases he : e = a
  · rw [he, if_pos rfl]; exact Memory.read_write_same h a.toNat v
  · rw [if_neg he]; exact Memory.read_write_other h v fun hn => he (BitVec.eq_of_toNat_eq hn)

/-- Consecutive bytes that do not pass address 255: each stands at its address, and the bytes around them are as before. -/
theorem Memory.read_writeBytes {m : Memory} (h : m.wf) {a : Byte} {bytes : List Byte} (hl : a.toNat + bytes.length ≤ 256)
    (e : Byte) : (m.writeBytes a bytes).read e.toNat =
      if e.toNat < a.toNat then m.read e.toNat else bytes.getD (e.toNat - a.toNat) (m.read e.toNat) := by
  induction bytes generalizing m a with
  | nil => simp [Memory.writeBytes]
  | cons v vs ih =>
    have hne : e ≠ a → e.toNat ≠ a.toNat := fun he hn => he (BitVec.eq_of_toNat_eq hn)
    have hg : ∀ d, e.toNat ≠ a.toNat → ¬ e.toNat < a.toNat →
        (v :: vs).getD (e.toNat - a.toNat) d = vs.getD (e.toNat - (a.toNat + 1)) d := fun d h1 h2 => by
      rw [show e.toNat - a.toNat = e.toNat - (a.toNat + 1) + 1 by omega, List.getD_cons_succ]
    rw [Memory.writeBytes]
    cases vs with
    | nil =>
      rw [Memory.writeBytes, Memory.read_write h]
      by_cases he : e = a
      · simp [he]
      · rw [if_neg he]
        split
        · rfl
        · rw [hg _ (hne he) ‹_›]; rfl
    | cons w ws =>
      simp only [List.length_cons] at hl
      have ha : (a + 1).toNat = a.toNat + 1 := by simp [BitVec.toNat_add]; omega
      rw [ih (Memory.write_wf h a.isLt v) (by simp only [ha, List.length_cons]; omega), Memory.read_write h, ha]
      by_cases he : e = a
      · simp [he]
      · rw [if_neg he]
        by_cases hlt : e.toNat < a.toNat
        · rw [if_pos hlt, if_pos (by omega)]
        · rw [if_neg hlt, if_neg (by have := hne he; omega), hg _ (hne he) hlt]

/-- The state's own write keeps the canonical form. -/
theorem State.memWrite_wf {s : State} (h : s.mem.wf) (a v : Byte) : (s.memWrite a v).mem.wf :=
  Memory.write_wf h a.isLt v

/-- One byte read after one byte written. -/
theorem State.memRead_memWrite {s : State} (h : s.mem.wf) (a v e : Byte) :
    (s.memWrite a v).memRead e = if e = a then v else s.memRead e := by
  by_cases he : e = a
  · subst he
    rw [if_pos rfl]
    exact Memory.read_write_same h e.toNat v
  · rw [if_neg he]
    exact Memory.read_write_other h v fun hn => he (BitVec.eq_of_toNat_eq hn)

/-- The memory of the reset state is canonical. -/
theorem State.reset_mem_wf : State.reset.mem.wf := by decide

end Sys2Proof.Machine
end

