-- ==== Sys2Proof/Laws/Loader.lean ====
section
/-! SUPPORT. What a load and a refused load do (spec 70_reset_and_hazards.md R201, R202; 60_exceptions.md R194). -/

namespace Sys2Proof.Machine

/-- A load of at most 256 bytes is admitted and changes memory only. -/
theorem load_of_le {bytes : List Byte} (h : bytes.length ≤ 256) (s : State) :
    load bytes s = some { s with mem := s.mem.writeBytes 0 bytes } := if_pos h

/-- A longer one is refused. -/
theorem load_of_lt {bytes : List Byte} (h : 256 < bytes.length) (s : State) : load bytes s = none := if_neg (by omega)

/-! ### A refused load -/

@[simp] theorem refusedLoad_x (bytes : List Byte) (s : State) : (refusedLoad bytes s).x = s.x := rfl
@[simp] theorem refusedLoad_pc (bytes : List Byte) (s : State) : (refusedLoad bytes s).pc = s.pc := rfl
@[simp] theorem refusedLoad_fl (bytes : List Byte) (s : State) : (refusedLoad bytes s).fl = s.fl := rfl
@[simp] theorem refusedLoad_status (bytes : List Byte) (s : State) : (refusedLoad bytes s).status = s.status := rfl
@[simp] theorem refusedLoad_fault (bytes : List Byte) (s : State) : (refusedLoad bytes s).fault = s.fault := rfl
@[simp] theorem refusedLoad_out (bytes : List Byte) (s : State) : (refusedLoad bytes s).out = s.out := rfl

/-- What it leaves in memory is canonical. -/
theorem refusedLoad_mem_wf (bytes : List Byte) (s : State) : (refusedLoad bytes s).mem.wf :=
  Memory.writeBytes_wf (by decide) 0 _

end Sys2Proof.Machine
end

