-- ==== Sys2Proof/Laws/State.lean ====
section
/-! SUPPORT. One lemma per field of State per update, so that no proof unfolds a record update. -/

namespace Sys2Proof.Machine

/-! ### setReg -/

@[simp] theorem State.setReg_x (s : State) (r : Fin 8) (v : Byte) : (s.setReg r v).x = s.x.set r v := rfl
@[simp] theorem State.setReg_pc (s : State) (r : Fin 8) (v : Byte) : (s.setReg r v).pc = s.pc := rfl
@[simp] theorem State.setReg_fl (s : State) (r : Fin 8) (v : Byte) : (s.setReg r v).fl = s.fl := rfl
@[simp] theorem State.setReg_mem (s : State) (r : Fin 8) (v : Byte) : (s.setReg r v).mem = s.mem := rfl
@[simp] theorem State.setReg_status (s : State) (r : Fin 8) (v : Byte) : (s.setReg r v).status = s.status := rfl
@[simp] theorem State.setReg_fault (s : State) (r : Fin 8) (v : Byte) : (s.setReg r v).fault = s.fault := rfl
@[simp] theorem State.setReg_out (s : State) (r : Fin 8) (v : Byte) : (s.setReg r v).out = s.out := rfl

/-! ### memWrite -/

@[simp] theorem State.memWrite_x (s : State) (a v : Byte) : (s.memWrite a v).x = s.x := rfl
@[simp] theorem State.memWrite_pc (s : State) (a v : Byte) : (s.memWrite a v).pc = s.pc := rfl
@[simp] theorem State.memWrite_fl (s : State) (a v : Byte) : (s.memWrite a v).fl = s.fl := rfl
@[simp] theorem State.memWrite_mem (s : State) (a v : Byte) : (s.memWrite a v).mem = s.mem.write a.toNat v := rfl
@[simp] theorem State.memWrite_status (s : State) (a v : Byte) : (s.memWrite a v).status = s.status := rfl
@[simp] theorem State.memWrite_fault (s : State) (a v : Byte) : (s.memWrite a v).fault = s.fault := rfl
@[simp] theorem State.memWrite_out (s : State) (a v : Byte) : (s.memWrite a v).out = s.out := rfl

/-! ### setPc -/

@[simp] theorem State.setPc_x (s : State) (t : Byte) : (s.setPc t).x = s.x := rfl
@[simp] theorem State.setPc_pc (s : State) (t : Byte) : (s.setPc t).pc = t := rfl
@[simp] theorem State.setPc_fl (s : State) (t : Byte) : (s.setPc t).fl = s.fl := rfl
@[simp] theorem State.setPc_mem (s : State) (t : Byte) : (s.setPc t).mem = s.mem := rfl
@[simp] theorem State.setPc_status (s : State) (t : Byte) : (s.setPc t).status = s.status := rfl
@[simp] theorem State.setPc_fault (s : State) (t : Byte) : (s.setPc t).fault = s.fault := rfl
@[simp] theorem State.setPc_out (s : State) (t : Byte) : (s.setPc t).out = s.out := rfl

/-! ### setFlags -/

@[simp] theorem State.setFlags_x (s : State) (f : Flags) : (s.setFlags f).x = s.x := rfl
@[simp] theorem State.setFlags_pc (s : State) (f : Flags) : (s.setFlags f).pc = s.pc := rfl
@[simp] theorem State.setFlags_fl (s : State) (f : Flags) : (s.setFlags f).fl = f := rfl
@[simp] theorem State.setFlags_mem (s : State) (f : Flags) : (s.setFlags f).mem = s.mem := rfl
@[simp] theorem State.setFlags_status (s : State) (f : Flags) : (s.setFlags f).status = s.status := rfl
@[simp] theorem State.setFlags_fault (s : State) (f : Flags) : (s.setFlags f).fault = s.fault := rfl
@[simp] theorem State.setFlags_out (s : State) (f : Flags) : (s.setFlags f).out = s.out := rfl

/-! ### emit -/

@[simp] theorem State.emit_x (s : State) (e : OutEvent) : (s.emit e).x = s.x := rfl
@[simp] theorem State.emit_pc (s : State) (e : OutEvent) : (s.emit e).pc = s.pc := rfl
@[simp] theorem State.emit_fl (s : State) (e : OutEvent) : (s.emit e).fl = s.fl := rfl
@[simp] theorem State.emit_mem (s : State) (e : OutEvent) : (s.emit e).mem = s.mem := rfl
@[simp] theorem State.emit_status (s : State) (e : OutEvent) : (s.emit e).status = s.status := rfl
@[simp] theorem State.emit_fault (s : State) (e : OutEvent) : (s.emit e).fault = s.fault := rfl
@[simp] theorem State.emit_out (s : State) (e : OutEvent) : (s.emit e).out = s.out ++ [e] := rfl

/-! ### raise -/

@[simp] theorem State.raise_x (s : State) (k : FaultKind) (op info : Byte) : (s.raise k op info).x = s.x := rfl
@[simp] theorem State.raise_pc (s : State) (k : FaultKind) (op info : Byte) : (s.raise k op info).pc = s.pc := rfl
@[simp] theorem State.raise_fl (s : State) (k : FaultKind) (op info : Byte) : (s.raise k op info).fl = s.fl := rfl
@[simp] theorem State.raise_mem (s : State) (k : FaultKind) (op info : Byte) : (s.raise k op info).mem = s.mem := rfl
@[simp] theorem State.raise_status (s : State) (k : FaultKind) (op info : Byte) : (s.raise k op info).status = .faulted := rfl
@[simp] theorem State.raise_fault (s : State) (k : FaultKind) (op info : Byte) : (s.raise k op info).fault = some ⟨k, s.pc, op, info⟩ := rfl
@[simp] theorem State.raise_out (s : State) (k : FaultKind) (op info : Byte) : (s.raise k op info).out = s.out := rfl

/-! ### advance -/

@[simp] theorem State.advance_x (s : State) (op p : Byte) : (s.advance op p).x = s.x := rfl
@[simp] theorem State.advance_pc (s : State) (op p : Byte) : (s.advance op p).pc = if setsPC op then s.pc else p + BitVec.ofNat 8 (operandCount op + 1) := rfl
@[simp] theorem State.advance_fl (s : State) (op p : Byte) : (s.advance op p).fl = s.fl := rfl
@[simp] theorem State.advance_mem (s : State) (op p : Byte) : (s.advance op p).mem = s.mem := rfl
@[simp] theorem State.advance_status (s : State) (op p : Byte) : (s.advance op p).status = s.status := rfl
@[simp] theorem State.advance_fault (s : State) (op p : Byte) : (s.advance op p).fault = s.fault := rfl
@[simp] theorem State.advance_out (s : State) (op p : Byte) : (s.advance op p).out = s.out := rfl

/-! ### halt -/

@[simp] theorem State.halt_x (s : State) : s.halt.x = s.x := rfl
@[simp] theorem State.halt_pc (s : State) : s.halt.pc = s.pc := rfl
@[simp] theorem State.halt_fl (s : State) : s.halt.fl = s.fl := rfl
@[simp] theorem State.halt_mem (s : State) : s.halt.mem = s.mem := rfl
@[simp] theorem State.halt_status (s : State) : s.halt.status = .halted := rfl
@[simp] theorem State.halt_fault (s : State) : s.halt.fault = s.fault := rfl
@[simp] theorem State.halt_out (s : State) : s.halt.out = s.out := rfl

/-! ### Registers and memory through their accessors -/

/-- A register read after a register write. -/
theorem State.getReg_setReg (s : State) (r q : Fin 8) (v : Byte) :
    (s.setReg r v).getReg q = if q = r then v else s.getReg q := by
  by_cases h : q = r
  · subst h
    simp [State.getReg, State.setReg]
  · have hv : r.val ≠ q.val := fun hq => h (Fin.ext hq.symm)
    simp [State.getReg, State.setReg, h, hv]

@[simp] theorem State.getReg_advance (s : State) (op p : Byte) (q : Fin 8) : (s.advance op p).getReg q = s.getReg q := rfl
@[simp] theorem State.getReg_raise (s : State) (k : FaultKind) (op info : Byte) (q : Fin 8) :
    (s.raise k op info).getReg q = s.getReg q := rfl
@[simp] theorem State.getReg_memWrite (s : State) (a v : Byte) (q : Fin 8) : (s.memWrite a v).getReg q = s.getReg q := rfl
@[simp] theorem State.memRead_advance (s : State) (op p a : Byte) : (s.advance op p).memRead a = s.memRead a := rfl
@[simp] theorem State.memRead_raise (s : State) (k : FaultKind) (op info a : Byte) :
    (s.raise k op info).memRead a = s.memRead a := rfl
@[simp] theorem State.memRead_setReg (s : State) (r : Fin 8) (v a : Byte) : (s.setReg r v).memRead a = s.memRead a := rfl

end Sys2Proof.Machine
end

