-- ==== Sys2Proof/Laws/Operands.lean ====
section
/-! SUPPORT. What each shared operation over operands can do, said once (spec 00_scope.md R11, 30_encoding.md R75, 60_exceptions.md R184). -/

namespace Sys2Proof.Machine

/-- A byte below 8 names that register under either policy. -/
theorem regOf_of_lt (c : Config) {b : Byte} (h : b.toNat < 8) : regOf c b = some (Fin.ofNat 8 b.toNat) := by
  simp [regOf, h]

/-- Under the policy `fault`, a byte names no register exactly when it is 8 or more. -/
theorem regOf_eq_none_iff {c : Config} (hc : c.regIndexPolicy = .fault) (b : Byte) : regOf c b = none ↔ 8 ≤ b.toNat := by
  by_cases h : b.toNat < 8
  · simp [regOf, h]
  · simp [regOf, h, hc]; omega

/-- Under the policy `low3`, every byte names a register. -/
theorem regOf_low3 {c : Config} (hc : c.regIndexPolicy = .low3) (b : Byte) :
    regOf c b = some (Fin.ofNat 8 (b &&& 7#8).toNat) := by
  by_cases h : b.toNat < 8
  · have hb : b &&& 7#8 = b := by
      apply BitVec.eq_of_toNat_eq
      rw [BitVec.toNat_and]
      exact Nat.and_two_pow_sub_one_of_lt_two_pow (n := 3) h
    rw [regOf_of_lt c h, hb]
  · simp [regOf, h, hc]

/-- A register operand that names a register goes on. -/
theorem withReg_of_some {c : Config} {b : Byte} {r : Fin 8} (h : regOf c b = some r) (m : Mnemonic) (s : State)
    (k : Fin 8 → State) : withReg c m b s k = k r := by
  simp [withReg, h]

/-- A register operand that names none raises BAD_REGISTER. -/
theorem withReg_of_none {c : Config} {b : Byte} (h : regOf c b = none) (m : Mnemonic) (s : State) (k : Fin 8 → State) :
    withReg c m b s k = s.raise .badRegister (c.table m) b := by
  simp [withReg, h]

/-- Everything `withReg` can do. -/
theorem withReg_cases (c : Config) (m : Mnemonic) (b : Byte) (s : State) (k : Fin 8 → State) :
    (∃ r, regOf c b = some r ∧ withReg c m b s k = k r) ∨
    (regOf c b = none ∧ withReg c m b s k = s.raise .badRegister (c.table m) b) := by
  cases h : regOf c b with
  | none => exact .inr ⟨rfl, withReg_of_none h m s k⟩
  | some r => exact .inl ⟨r, rfl, withReg_of_some h m s k⟩

/-- Everything `withRegs` can do: both operands name registers, or op1 names none, or op1 does and op2 does not. -/
theorem withRegs_cases (c : Config) (m : Mnemonic) (a b : Byte) (s : State) (k : Fin 8 → Fin 8 → State) :
    (∃ ra rb, regOf c a = some ra ∧ regOf c b = some rb ∧ withRegs c m a b s k = k ra rb) ∨
    (regOf c a = none ∧ withRegs c m a b s k = s.raise .badRegister (c.table m) a) ∨
    (∃ ra, regOf c a = some ra ∧ regOf c b = none ∧ withRegs c m a b s k = s.raise .badRegister (c.table m) b) := by
  rcases withReg_cases c m a s fun ra => withReg c m b s fun rb => k ra rb with ⟨ra, ha, hk⟩ | ⟨ha, hk⟩
  · rcases withReg_cases c m b s fun rb => k ra rb with ⟨rb, hb, hl⟩ | ⟨hb, hl⟩
    · exact .inl ⟨ra, rb, ha, hb, by rw [withRegs, hk, hl]⟩
    · exact .inr (.inr ⟨ra, ha, hb, by rw [withRegs, hk, hl]⟩)
  · exact .inr (.inl ⟨ha, by rw [withRegs, hk]⟩)

end Sys2Proof.Machine
end

