-- ==== Sys2Proof/Laws/PerInstr.lean ====
section
/-! SUPPORT. Facts about every instruction as syntax, one lemma per constructor. -/

/-- The encoding is the table's code and then exactly the operand bytes of the instruction's format (spec 30_encoding.md R70, R74). -/
def Sys2Proof.Laws.Format.Statement (i : Sys2Proof.Instr) : Prop :=
  (∀ t : Sys2Proof.OpcodeTable, Sys2Proof.encode t i = t i.mnemonic :: i.operands) ∧
  i.operands.length = i.mnemonic.format.operands ∧
  i.registerOperands <+: i.operands

theorem Sys2Proof.Laws.Format.nop : Sys2Proof.Laws.Format.Statement .nop :=
  ⟨fun _ => rfl, rfl, by simp [Sys2Proof.Instr.registerOperands, Sys2Proof.Instr.operands]⟩

theorem Sys2Proof.Laws.Format.hlt : Sys2Proof.Laws.Format.Statement .hlt :=
  ⟨fun _ => rfl, rfl, by simp [Sys2Proof.Instr.registerOperands, Sys2Proof.Instr.operands]⟩

theorem Sys2Proof.Laws.Format.ldi (r v : Byte) : Sys2Proof.Laws.Format.Statement (.ldi r v) :=
  ⟨fun _ => rfl, rfl, by simp [Sys2Proof.Instr.registerOperands, Sys2Proof.Instr.operands]⟩

theorem Sys2Proof.Laws.Format.ld (a b : Byte) : Sys2Proof.Laws.Format.Statement (.ld a b) :=
  ⟨fun _ => rfl, rfl, by simp [Sys2Proof.Instr.registerOperands, Sys2Proof.Instr.operands]⟩

theorem Sys2Proof.Laws.Format.st (a b : Byte) : Sys2Proof.Laws.Format.Statement (.st a b) :=
  ⟨fun _ => rfl, rfl, by simp [Sys2Proof.Instr.registerOperands, Sys2Proof.Instr.operands]⟩

theorem Sys2Proof.Laws.Format.prn (r : Byte) : Sys2Proof.Laws.Format.Statement (.prn r) :=
  ⟨fun _ => rfl, rfl, by simp [Sys2Proof.Instr.registerOperands, Sys2Proof.Instr.operands]⟩

theorem Sys2Proof.Laws.Format.pra (r : Byte) : Sys2Proof.Laws.Format.Statement (.pra r) :=
  ⟨fun _ => rfl, rfl, by simp [Sys2Proof.Instr.registerOperands, Sys2Proof.Instr.operands]⟩

theorem Sys2Proof.Laws.Format.add (a b : Byte) : Sys2Proof.Laws.Format.Statement (.add a b) :=
  ⟨fun _ => rfl, rfl, by simp [Sys2Proof.Instr.registerOperands, Sys2Proof.Instr.operands]⟩

theorem Sys2Proof.Laws.Format.addi (r v : Byte) : Sys2Proof.Laws.Format.Statement (.addi r v) :=
  ⟨fun _ => rfl, rfl, by simp [Sys2Proof.Instr.registerOperands, Sys2Proof.Instr.operands]⟩

theorem Sys2Proof.Laws.Format.inc (r : Byte) : Sys2Proof.Laws.Format.Statement (.inc r) :=
  ⟨fun _ => rfl, rfl, by simp [Sys2Proof.Instr.registerOperands, Sys2Proof.Instr.operands]⟩

theorem Sys2Proof.Laws.Format.sub (a b : Byte) : Sys2Proof.Laws.Format.Statement (.sub a b) :=
  ⟨fun _ => rfl, rfl, by simp [Sys2Proof.Instr.registerOperands, Sys2Proof.Instr.operands]⟩

theorem Sys2Proof.Laws.Format.subi (r v : Byte) : Sys2Proof.Laws.Format.Statement (.subi r v) :=
  ⟨fun _ => rfl, rfl, by simp [Sys2Proof.Instr.registerOperands, Sys2Proof.Instr.operands]⟩

theorem Sys2Proof.Laws.Format.dec (r : Byte) : Sys2Proof.Laws.Format.Statement (.dec r) :=
  ⟨fun _ => rfl, rfl, by simp [Sys2Proof.Instr.registerOperands, Sys2Proof.Instr.operands]⟩

theorem Sys2Proof.Laws.Format.mul (a b : Byte) : Sys2Proof.Laws.Format.Statement (.mul a b) :=
  ⟨fun _ => rfl, rfl, by simp [Sys2Proof.Instr.registerOperands, Sys2Proof.Instr.operands]⟩

theorem Sys2Proof.Laws.Format.div (a b : Byte) : Sys2Proof.Laws.Format.Statement (.div a b) :=
  ⟨fun _ => rfl, rfl, by simp [Sys2Proof.Instr.registerOperands, Sys2Proof.Instr.operands]⟩

theorem Sys2Proof.Laws.Format.mod (a b : Byte) : Sys2Proof.Laws.Format.Statement (.mod a b) :=
  ⟨fun _ => rfl, rfl, by simp [Sys2Proof.Instr.registerOperands, Sys2Proof.Instr.operands]⟩

theorem Sys2Proof.Laws.Format.shl (a b : Byte) : Sys2Proof.Laws.Format.Statement (.shl a b) :=
  ⟨fun _ => rfl, rfl, by simp [Sys2Proof.Instr.registerOperands, Sys2Proof.Instr.operands]⟩

theorem Sys2Proof.Laws.Format.shr (a b : Byte) : Sys2Proof.Laws.Format.Statement (.shr a b) :=
  ⟨fun _ => rfl, rfl, by simp [Sys2Proof.Instr.registerOperands, Sys2Proof.Instr.operands]⟩

theorem Sys2Proof.Laws.Format.and (a b : Byte) : Sys2Proof.Laws.Format.Statement (.and a b) :=
  ⟨fun _ => rfl, rfl, by simp [Sys2Proof.Instr.registerOperands, Sys2Proof.Instr.operands]⟩

theorem Sys2Proof.Laws.Format.or (a b : Byte) : Sys2Proof.Laws.Format.Statement (.or a b) :=
  ⟨fun _ => rfl, rfl, by simp [Sys2Proof.Instr.registerOperands, Sys2Proof.Instr.operands]⟩

theorem Sys2Proof.Laws.Format.xor (a b : Byte) : Sys2Proof.Laws.Format.Statement (.xor a b) :=
  ⟨fun _ => rfl, rfl, by simp [Sys2Proof.Instr.registerOperands, Sys2Proof.Instr.operands]⟩

theorem Sys2Proof.Laws.Format.not (r : Byte) : Sys2Proof.Laws.Format.Statement (.not r) :=
  ⟨fun _ => rfl, rfl, by simp [Sys2Proof.Instr.registerOperands, Sys2Proof.Instr.operands]⟩

theorem Sys2Proof.Laws.Format.cmp (a b : Byte) : Sys2Proof.Laws.Format.Statement (.cmp a b) :=
  ⟨fun _ => rfl, rfl, by simp [Sys2Proof.Instr.registerOperands, Sys2Proof.Instr.operands]⟩

theorem Sys2Proof.Laws.Format.jmp (r : Byte) : Sys2Proof.Laws.Format.Statement (.jmp r) :=
  ⟨fun _ => rfl, rfl, by simp [Sys2Proof.Instr.registerOperands, Sys2Proof.Instr.operands]⟩

theorem Sys2Proof.Laws.Format.jeq (r : Byte) : Sys2Proof.Laws.Format.Statement (.jeq r) :=
  ⟨fun _ => rfl, rfl, by simp [Sys2Proof.Instr.registerOperands, Sys2Proof.Instr.operands]⟩

theorem Sys2Proof.Laws.Format.jne (r : Byte) : Sys2Proof.Laws.Format.Statement (.jne r) :=
  ⟨fun _ => rfl, rfl, by simp [Sys2Proof.Instr.registerOperands, Sys2Proof.Instr.operands]⟩

theorem Sys2Proof.Laws.Format.jlt (r : Byte) : Sys2Proof.Laws.Format.Statement (.jlt r) :=
  ⟨fun _ => rfl, rfl, by simp [Sys2Proof.Instr.registerOperands, Sys2Proof.Instr.operands]⟩

theorem Sys2Proof.Laws.Format.jle (r : Byte) : Sys2Proof.Laws.Format.Statement (.jle r) :=
  ⟨fun _ => rfl, rfl, by simp [Sys2Proof.Instr.registerOperands, Sys2Proof.Instr.operands]⟩

theorem Sys2Proof.Laws.Format.jgt (r : Byte) : Sys2Proof.Laws.Format.Statement (.jgt r) :=
  ⟨fun _ => rfl, rfl, by simp [Sys2Proof.Instr.registerOperands, Sys2Proof.Instr.operands]⟩

theorem Sys2Proof.Laws.Format.jge (r : Byte) : Sys2Proof.Laws.Format.Statement (.jge r) :=
  ⟨fun _ => rfl, rfl, by simp [Sys2Proof.Instr.registerOperands, Sys2Proof.Instr.operands]⟩
end

