-- ==== Sys2Proof/Laws/Step.lean ====
section
/-! SUPPORT. What a handler, a cycle and a run can do, said once, for later proofs to cite instead of unfolding them. -/

namespace Sys2Proof.Machine

/-! ### Registers named by a byte -/

/-- The byte that stands for a register names it, under either policy. -/
theorem regOf_regByte (c : Config) (r : Fin 8) : regOf c (regByte r) = some r := by
  have h : ∀ r : Fin 8, (regByte r).toNat < 8 ∧ Fin.ofNat 8 (regByte r).toNat = r := by decide
  rw [regOf_of_lt c (h r).1, (h r).2]

/-! ### Step 6 -/

/-- An opcode with bit 4 clear moves pc past the instruction. -/
theorem State.advance_of_clear {op : Byte} (h : setsPC op = false) (s : State) (p : Byte) :
    s.advance op p = { s with pc := p + BitVec.ofNat 8 (operandCount op + 1) } := by
  simp [State.advance, h]

/-- An opcode with bit 4 set leaves pc as the handler left it. -/
theorem State.advance_of_set {op : Byte} (h : setsPC op = true) (s : State) (p : Byte) : s.advance op p = s := by
  simp [State.advance, h]

/-! ### exec and handle -/

/-- `exec` is the handler array on the standard machine. -/
theorem exec_eq_handle (i : Instr) (s : State) : exec i s = .next (handle Config.standard i s) := by
  cases i <;> rfl

/-! ### The fault of an instruction -/

/-- An instruction with one register operand faults exactly when that operand names no register. -/
theorem handlerFault_one {c : Config} {s : State} {i : Instr} {b : Byte} (hi : i.registerOperands = [b])
    (hz : dividesByZero c s i = false) :
    (∃ r, regOf c b = some r ∧ handlerFault c s i = none) ∨
    (regOf c b = none ∧ handlerFault c s i = some (.badRegister, b)) := by
  simp only [handlerFault, hi, hz]
  cases h : regOf c b <;> simp [h]

/-- An instruction with two register operands: op1 is checked first, then op2, then the divisor. -/
theorem handlerFault_two {c : Config} {s : State} {i : Instr} {a b : Byte} (hi : i.registerOperands = [a, b]) :
    (∃ ra rb, regOf c a = some ra ∧ regOf c b = some rb ∧
      handlerFault c s i = if dividesByZero c s i then some (.divideByZero, 0) else none) ∨
    (regOf c a = none ∧ handlerFault c s i = some (.badRegister, a)) ∨
    (∃ ra, regOf c a = some ra ∧ regOf c b = none ∧ handlerFault c s i = some (.badRegister, b)) := by
  simp only [handlerFault, hi]
  cases h : regOf c a <;> cases h' : regOf c b <;> simp [h, h']

/-! ### Everything a handler can do -/

/-- What an instruction that raises no fault does: one effect, then step 6, and for HLT step 7. -/
inductive Effect (c : Config) : Instr → State → State → Prop
  | nop {s} : Effect c .nop s (s.advance (c.table .nop) s.pc)
  | hlt {s} : Effect c .hlt s ((s.advance (c.table .hlt) s.pc).halt)
  | register {i s} (b : Byte) (r : Fin 8) (v : Byte) (dest : destination i = some b) (names : regOf c b = some r) :
      Effect c i s ((s.setReg r v).advance (c.table i.mnemonic) s.pc)
  | store {s} (a b : Byte) (ra rb : Fin 8) (namesA : regOf c a = some ra) (namesB : regOf c b = some rb) :
      Effect c (.st a b) s ((s.memWrite (s.getReg ra) (s.getReg rb)).advance (c.table .st) s.pc)
  | printDec {s} (b : Byte) (r : Fin 8) (names : regOf c b = some r) :
      Effect c (.prn b) s ((s.emit (.dec (s.getReg r))).advance (c.table .prn) s.pc)
  | printChar {s} (b : Byte) (r : Fin 8) (names : regOf c b = some r) :
      Effect c (.pra b) s ((s.emit (.char (s.getReg r))).advance (c.table .pra) s.pc)
  | compare {s} (a b : Byte) (ra rb : Fin 8) (namesA : regOf c a = some ra) (namesB : regOf c b = some rb) :
      Effect c (.cmp a b) s ((s.setFlags (compareFlags (s.getReg ra) (s.getReg rb))).advance (c.table .cmp) s.pc)
  | jump {i s} (b : Byte) (r : Fin 8) (t : Byte) (isJump : i.mnemonic.isJump = true) (operand : i.operands = [b])
      (names : regOf c b = some r) (target : t = s.getReg r ∨ t = s.pc + 2) :
      Effect c i s ((s.setPc t).advance (c.table i.mnemonic) s.pc)

/-- Everything a handler can do: its effect where no fault applies, else the first fault by priority. -/
def HandlerSpec (c : Config) (i : Instr) (s : State) : Prop :=
  (handlerFault c s i = none ∧ Effect c i s (handle c i s)) ∨
  ∃ kind info, handlerFault c s i = some (kind, info) ∧ handle c i s = faultedState s kind (c.table i.mnemonic) info

/-- `HandlerSpec` for an instruction with one register operand, from its effect on a named register. -/
theorem handlerSpec_one {c : Config} {i : Instr} {s : State} {b : Byte} (hi : i.registerOperands = [b])
    (hz : dividesByZero c s i = false) (k : Fin 8 → State) (hk : handle c i s = withReg c i.mnemonic b s k)
    (he : ∀ r, regOf c b = some r → Effect c i s (k r)) : HandlerSpec c i s := by
  rcases handlerFault_one (c := c) (s := s) hi hz with ⟨r, hr, hf⟩ | ⟨hr, hf⟩
  · exact .inl ⟨hf, by rw [hk, withReg_of_some hr]; exact he r hr⟩
  · exact .inr ⟨_, _, hf, by rw [hk, withReg_of_none hr]; rfl⟩

/-- `HandlerSpec` for an instruction with two register operands, from what it does on named registers. -/
theorem handlerSpec_two {c : Config} {i : Instr} {s : State} {a b : Byte} (hi : i.registerOperands = [a, b])
    (k : Fin 8 → Fin 8 → State) (hk : handle c i s = withRegs c i.mnemonic a b s k)
    (he : ∀ ra rb, regOf c a = some ra → regOf c b = some rb →
      if dividesByZero c s i then k ra rb = faultedState s .divideByZero (c.table i.mnemonic) 0
      else Effect c i s (k ra rb)) : HandlerSpec c i s := by
  rcases handlerFault_two (c := c) (s := s) hi with ⟨ra, rb, ha, hb, hf⟩ | ⟨ha, hf⟩ | ⟨ra, ha, hb, hf⟩
  · have h := he ra rb ha hb
    have hn : handle c i s = k ra rb := by rw [hk, withRegs, withReg_of_some ha, withReg_of_some hb]
    cases hz : dividesByZero c s i <;> rw [hz] at h hf
    · exact .inl ⟨by simpa using hf, by rw [hn]; simpa using h⟩
    · exact .inr ⟨_, _, by simpa using hf, by rw [hn]; simpa using h⟩
  · exact .inr ⟨_, _, hf, by rw [hk, withRegs, withReg_of_none ha]; rfl⟩
  · exact .inr ⟨_, _, hf, by rw [hk, withRegs, withReg_of_some ha, withReg_of_none hb]; rfl⟩

/-- Every handler meets its specification. -/
theorem handle_spec (c : Config) (i : Instr) (s : State) : HandlerSpec c i s := by
  cases i with
  | nop => exact .inl ⟨rfl, .nop⟩
  | hlt => exact .inl ⟨rfl, .hlt⟩
  | ldi r v | addi r v | subi r v => exact handlerSpec_one rfl rfl _ rfl fun t ht => .register r t _ rfl ht
  | inc r | dec r | not r => exact handlerSpec_one rfl rfl _ rfl fun t ht => .register r t _ rfl ht
  | ld a b | add a b | sub a b | mul a b => exact handlerSpec_two rfl _ rfl fun ra _ ha _ => Effect.register a ra _ rfl ha
  | shl a b | shr a b | and a b | or a b | xor a b =>
    exact handlerSpec_two rfl _ rfl fun ra _ ha _ => Effect.register a ra _ rfl ha
  | st a b => exact handlerSpec_two rfl _ rfl fun ra rb ha hb => .store a b ra rb ha hb
  | cmp a b => exact handlerSpec_two rfl _ rfl fun ra rb ha hb => .compare a b ra rb ha hb
  | prn r => exact handlerSpec_one rfl rfl _ rfl fun t ht => .printDec r t ht
  | pra r => exact handlerSpec_one rfl rfl _ rfl fun t ht => .printChar r t ht
  | div a b =>
    refine handlerSpec_two rfl _ rfl fun ra rb ha hb => ?_
    simp only [dividesByZero, hb, Option.any_some, beq_iff_eq]
    by_cases h : s.getReg rb = 0
    · rw [if_pos h, if_pos h]; rfl
    · rw [if_neg h, if_neg h]; exact Effect.register (i := .div a b) a ra _ rfl ha
  | mod a b =>
    refine handlerSpec_two rfl _ rfl fun ra rb ha hb => ?_
    simp only [dividesByZero, hb, Option.any_some, beq_iff_eq]
    by_cases h : s.getReg rb = 0
    · rw [if_pos h, if_pos h]; rfl
    · rw [if_neg h, if_neg h]; exact Effect.register (i := .mod a b) a ra _ rfl ha
  | jmp r | jeq r | jne r | jlt r | jle r | jgt r | jge r =>
    refine handlerSpec_one rfl rfl _ rfl fun t ht => Effect.jump r t _ rfl rfl ht ?_
    split <;> simp

/-! ### Everything a cycle can do -/

/-- The instruction fetched is the one whose code is at pc, with the bytes after it. -/
theorem fetchInstr_some {t : OpcodeTable} {s : State} {i : Instr} (h : fetchInstr t s = some i) :
    t i.mnemonic = s.opcode ∧ i = i.mnemonic.instr (s.operand 1) (s.operand 2) := by
  rw [fetchInstr] at h
  cases hr : resolve t s.opcode with
  | none => rw [hr] at h; cases h
  | some m =>
    rw [hr] at h
    have hm : (m.instr (s.operand 1) (s.operand 2)).mnemonic = m := by cases m <;> rfl
    simp only [Option.map_some, Option.some.injEq] at h
    subst h
    rw [hm]
    exact ⟨resolve_code hr, rfl⟩

/-- A cycle runs the fetched instruction's handler, or faults on an unknown opcode. -/
theorem stepUnder_running {c : Config} {s : State} (h : s.status = .running) :
    (fetchInstr c.table s = none ∧ stepUnder c s = faultedState s .unknownOpcode s.opcode 0) ∨
    ∃ i, fetchInstr c.table s = some i ∧ stepUnder c s = handle c i s := by
  cases hf : fetchInstr c.table s with
  | none => exact .inl ⟨rfl, by simp [stepUnder, h, hf]; rfl⟩
  | some i => exact .inr ⟨i, rfl, by simp [stepUnder, h, hf]⟩

/-! ### Runs -/

/-- One step of a run of any machine of the host's interface. -/
theorem run_succ (M : Host.Core) (k : Nat) (s t : M.State) (h : M.step s = .next t) : M.run (k + 1) s = M.run k t := by
  rw [Host.Core.run, h]

end Sys2Proof.Machine
end

