-- ==== Sys2Proof/Machine/Assembly.lean ====
section
/-! DEFINITION. The spec's assembly spelling of an instruction (30_encoding.md R81): the mnemonic, then its operands separated by
commas in encoding order, a register as Rn, an immediate as a decimal number. -/

namespace Sys2Proof.Machine

/-- The mnemonic as spec/opcode_table.json spells it. -/
def mnemonicName : Mnemonic → String
  | .nop => "NOP"
  | .hlt => "HLT"
  | .ldi => "LDI"
  | .ld => "LD"
  | .st => "ST"
  | .prn => "PRN"
  | .pra => "PRA"
  | .add => "ADD"
  | .addi => "ADDI"
  | .inc => "INC"
  | .sub => "SUB"
  | .subi => "SUBI"
  | .dec => "DEC"
  | .mul => "MUL"
  | .div => "DIV"
  | .mod => "MOD"
  | .shl => "SHL"
  | .shr => "SHR"
  | .and => "AND"
  | .or => "OR"
  | .xor => "XOR"
  | .not => "NOT"
  | .cmp => "CMP"
  | .jmp => "JMP"
  | .jeq => "JEQ"
  | .jne => "JNE"
  | .jlt => "JLT"
  | .jle => "JLE"
  | .jgt => "JGT"
  | .jge => "JGE"

/-- A byte as a decimal number. -/
def decimal (b : Byte) : String := String.ofList (Nat.toDigits 10 b.toNat)

/-- A register operand; none for a byte that no Rn spells. -/
def registerText (b : Byte) : Option String :=
  if b.toNat < 8 then some ("R" ++ decimal b) else none

/-- The operands of a format as text. -/
def operandText : Format → List Byte → Option String
  | .F0, _ => some ""
  | .F1R, bs => (registerText (bs.getD 0 0)).map fun r => " " ++ r
  | .F2RR, bs =>
    match registerText (bs.getD 0 0), registerText (bs.getD 1 0) with
    | some a, some b => some (" " ++ a ++ ", " ++ b)
    | _, _ => none
  | .F2RI, bs => (registerText (bs.getD 0 0)).map fun r => " " ++ r ++ ", " ++ decimal (bs.getD 1 0)

/-- The spelling of a well-formed instruction. -/
def assembly (i : Instr) : Option String :=
  (operandText i.mnemonic.format i.operands).map fun t => mnemonicName i.mnemonic ++ t

end Sys2Proof.Machine
end

