-- ==== Sys2Proof/Tests/Slice0.lean ====
section
/-! SUPPORT. Tests. Expected results are the spec's: the encodings of 30_encoding.md R74 and R77, the vectors of 95_test_vectors.md
(named in each docstring), or worked by hand from a rule. The last part shows, for each statement with hypotheses, a concrete state
and operands that meet them. -/

namespace Sys2Proof.Tests

open Sys2Proof.Machine

/-! ### WellFormed: an ill-formed term for each check -/

/-- op1 of 8 is refused. -/
theorem test_wellFormed_refuses_op1 : (Instr.add 8 0).wellFormed = false := by decide

/-- op2 of 255 is refused. -/
theorem test_wellFormed_refuses_op2 : (Instr.ld 0 255).wellFormed = false := by decide

/-- An immediate is not checked. -/
theorem test_wellFormed_immediate_free : (Instr.ldi 7 255).wellFormed = true := by decide

/-- A jump's operand is checked. -/
theorem test_wellFormed_refuses_jump : (Instr.jge 9).wellFormed = false := by decide

/-! ### The opcode table: an illegal table for each check of R76 -/

/-- The default table with the open codes at two of their choices. -/
def table80 : OpcodeTable := defaultTableWith 0x80 0x81

/-- That table with another code for one mnemonic. -/
def recoded (n : Mnemonic) (op : Byte) : OpcodeTable := fun m => if m = n then op else table80 m

/-- R76: the default codes are a table of this hardware. -/
theorem test_table_legal : table80.Legal := by decide

/-- A code with the wrong operand count is refused. -/
theorem test_table_refuses_count : ¬ (recoded .nop 0x41).Legal := by decide

/-- A jump with bit 4 clear is refused. -/
theorem test_table_refuses_bit4 : ¬ (recoded .jmp 0x40).Legal := by decide

/-- Two mnemonics with one code are refused. -/
theorem test_table_refuses_shared : ¬ (defaultTableWith 0x80 0x80).Legal := by decide

/-- HLT may have bit 4 set (90_conflicts.md C1). -/
theorem test_table_hlt_bit4_free : (recoded .hlt 0x10).Legal := by decide

/-! ### Decoding words written out from R74 and R77 -/

/-- What a decoding gives. -/
def decoded (bytes : List Byte) : Option (Instr × List Byte) :=
  match decode Config.standard.table bytes with
  | .ok p => some p
  | .error _ => none

/-- R77: NOP, HLT, LDI, LD, ST, bit by bit. -/
theorem test_decode_control :
    decoded [0b00000000#8] = some (.nop, []) ∧
    decoded [0b00000001#8] = some (.hlt, []) ∧
    decoded [0b10000010#8, 0b00000110#8, 0b00000011#8] = some (.ldi 6 3, []) ∧
    decoded [0b10000011#8, 0b00000110#8, 0b00000011#8] = some (.ld 6 3, []) ∧
    decoded [0b10000100#8, 0b00000110#8, 0b00000011#8] = some (.st 6 3, []) := by decide

/-- R77: PRN, PRA, bit by bit. -/
theorem test_decode_output :
    decoded [0b01000111#8, 0b00000101#8] = some (.prn 5, []) ∧
    decoded [0b01001000#8, 0b00000101#8] = some (.pra 5, []) := by decide

/-- R77: ADD, INC, SUB, DEC, MUL, DIV, MOD, bit by bit. -/
theorem test_decode_arith :
    decoded [0b10100000#8, 0b00000110#8, 0b00000011#8] = some (.add 6 3, []) ∧
    decoded [0b01100101#8, 0b00000101#8] = some (.inc 5, []) ∧
    decoded [0b10100001#8, 0b00000110#8, 0b00000011#8] = some (.sub 6 3, []) ∧
    decoded [0b01100110#8, 0b00000101#8] = some (.dec 5, []) ∧
    decoded [0b10100010#8, 0b00000110#8, 0b00000011#8] = some (.mul 6 3, []) ∧
    decoded [0b10100011#8, 0b00000110#8, 0b00000011#8] = some (.div 6 3, []) ∧
    decoded [0b10100100#8, 0b00000110#8, 0b00000011#8] = some (.mod 6 3, []) := by decide

/-- R77: SHL, SHR, AND, OR, XOR, NOT, bit by bit. -/
theorem test_decode_logic :
    decoded [0b10101100#8, 0b00000110#8, 0b00000011#8] = some (.shl 6 3, []) ∧
    decoded [0b10101101#8, 0b00000110#8, 0b00000011#8] = some (.shr 6 3, []) ∧
    decoded [0b10101000#8, 0b00000110#8, 0b00000011#8] = some (.and 6 3, []) ∧
    decoded [0b10101010#8, 0b00000110#8, 0b00000011#8] = some (.or 6 3, []) ∧
    decoded [0b10101011#8, 0b00000110#8, 0b00000011#8] = some (.xor 6 3, []) ∧
    decoded [0b01101001#8, 0b00000101#8] = some (.not 5, []) := by decide

/-- R77: CMP, JMP, JEQ, JNE, JLT, JLE, JGT, JGE, bit by bit. -/
theorem test_decode_compare :
    decoded [0b10100111#8, 0b00000110#8, 0b00000011#8] = some (.cmp 6 3, []) ∧
    decoded [0b01010100#8, 0b00000101#8] = some (.jmp 5, []) ∧
    decoded [0b01010101#8, 0b00000101#8] = some (.jeq 5, []) ∧
    decoded [0b01010110#8, 0b00000101#8] = some (.jne 5, []) ∧
    decoded [0b01011000#8, 0b00000101#8] = some (.jlt 5, []) ∧
    decoded [0b01011001#8, 0b00000101#8] = some (.jle 5, []) ∧
    decoded [0b01010111#8, 0b00000101#8] = some (.jgt 5, []) ∧
    decoded [0b01011010#8, 0b00000101#8] = some (.jge 5, []) := by decide

/-- R77: ADDI and SUBI decode from their code, whichever it is. -/
theorem test_decode_open_codes : ∀ (i : Fin 18) (j : Fin 17),
    resolve (defaultTableWith (addiCode i) (subiCode i j)) (addiCode i) = some .addi ∧
    resolve (defaultTableWith (addiCode i) (subiCode i j)) (subiCode i j) = some .subi := by decide +kernel

/-- R74: ADDI R3, 10 from its three bytes. -/
theorem test_decode_addi : decoded [opcAddi, 0b00000011#8, 0b00001010#8] = some (.addi 3 10, []) := by
  simp [decoded, decode, Config.standard, defaultTable, opcAddi, opcSubi,
    (test_decode_open_codes Config.addiChoice Config.subiChoice).1, Mnemonic.format, Format.operands, Mnemonic.instr]

/-- R74: SUBI R1, 10 from its three bytes. -/
theorem test_decode_subi : decoded [opcSubi, 0b00000001#8, 0b00001010#8] = some (.subi 1 10, []) := by
  simp [decoded, decode, Config.standard, defaultTable, opcAddi, opcSubi,
    (test_decode_open_codes Config.addiChoice Config.subiChoice).2, Mnemonic.format, Format.operands, Mnemonic.instr]

/-- R78: 0xFF, 0xC0 and 0x50 are unknown (S7, V-UNK-2, V-UNK-3). -/
theorem test_decode_unknown : decode Config.standard.table [0xFF] = .error (.unknownOpcode 0xFF) ∧
    decode Config.standard.table [0xC0, 1, 2, 3] = .error (.unknownOpcode 0xC0) ∧
    decode Config.standard.table [0x50, 0] = .error (.unknownOpcode 0x50) := ⟨rfl, rfl, rfl⟩

/-- Bytes that end too soon, and none at all, are refused by name. -/
theorem test_decode_short : decode Config.standard.table [0x82, 0] = .error (.missingOperands .ldi) ∧
    decode Config.standard.table [] = .error .noOpcode := ⟨rfl, rfl⟩

/-- S10: operand counts and the sets-PC bit. -/
theorem test_opcode_fields : operandCount 0x82 = 2 ∧ operandCount 0x47 = 1 ∧ operandCount 0x01 = 0 ∧ setsPC 0x54 = true ∧
    setsPC 0xA0 = false := by decide

/-- R81: LDI R0, 8 and ST R2, R0 as the spec spells them, and no spelling for a register of 8. -/
theorem test_assembly : assembly (.ldi 0 8) = some "LDI R0, 8" ∧ assembly (.st 2 0) = some "ST R2, R0" ∧
    assembly .nop = some "NOP" ∧ assembly (.jne 8) = none := by decide

/-! ### One step on a small state -/

/-- A state after reset but for pc and the bytes there. -/
def place (p : Byte) (code : List Byte) : State :=
  { State.reset with pc := p, mem := Memory.writeBytes [] p code }

/-- The state after one step. -/
def after (s : State) : State :=
  match step s with
  | .next t => t
  | .fault _ => s
  | .refused _ => s

/-- The state after one step on the machine with policy `low3`. -/
def afterLow3 (s : State) : State := stepUnder { Config.standard with regIndexPolicy := .low3 } s

/-- The flags as {E, G, L}. -/
def flE : Flags := ⟨true, false, false⟩
/-- As `flE`. -/
def flG : Flags := ⟨false, true, false⟩
/-- As `flE`. -/
def flL : Flags := ⟨false, false, true⟩

/-- V-PC-1. -/
theorem test_pc_wraps_operands :
    let t := after (place 254 [0x82, 0x00, 0x07])
    t.getReg 0 = 7 ∧ t.pc = 1 := by decide

/-- V-PC-4. -/
theorem test_pc_wraps_jump :
    let t := after (place 255 [0x55, 0x02])
    t.pc = 1 := by decide

/-- V-UNK-4. -/
theorem test_unknown_precise :
    let t := after ({ ((place 10 [0xFF]).setReg 0 5).setFlags flG with out := [.dec 1] })
    t.fault = some ⟨.unknownOpcode, 10, 0xFF, 0⟩ ∧ t.status = .faulted ∧ t.pc = 10 ∧ t.getReg 0 = 5 ∧ t.fl = flG ∧ t.out = [.dec 1] := by decide

/-- V-UNK-3. -/
theorem test_unknown_count3 :
    let t := after (place 0 [0xC0, 0x01, 0x02, 0x03])
    t.fault = some ⟨.unknownOpcode, 0, 0xC0, 0⟩ ∧ t.status = .faulted ∧ t.pc = 0 := by decide

/-- V-NOP-1 and V-PC-2. -/
theorem test_nop :
    let t := after (place 255 [0x00])
    t = { State.reset with pc := 0 } := by decide

/-- V-HLT-1. -/
theorem test_hlt :
    let t := after (place 5 [0x01])
    t.status = .halted ∧ t.pc = 6 ∧ t.fault = none := by decide

/-- V-HLT-2: under a table that gives HLT a code with bit 4 set, pc stays. -/
theorem test_hlt_bit4 :
    let t := stepUnder { Config.standard with table := recoded .hlt 0x10 } (place 5 [0x10])
    t.status = .halted ∧ t.pc = 5 := by decide

/-- V-LDI-2. -/
theorem test_ldi :
    let t := after (place 0 [0x82, 0x07, 0xFF])
    t.getReg 7 = 255 ∧ t.pc = 3 := by decide

/-- V-LDI-3. -/
theorem test_ldi_bad_register :
    let t := after (place 0 [0x82, 0x08, 0x05])
    t.fault = some ⟨.badRegister, 0, 0x82, 0x08⟩ ∧ t.status = .faulted ∧ t.pc = 0 ∧ t.x = State.reset.x := by decide

/-- V-LDI-4: under `low3`, operand 0x0A names register 2. -/
theorem test_ldi_low3 : (afterLow3 (place 0 [0x82, 0x0A, 5])).getReg 2 = 5 ∧ (afterLow3 (place 0 [0x82, 0x0A, 5])).pc = 3 := by
  decide

/-- V-PRI-4: under `low3`, DIV by a zero register faults as DIVIDE_BY_ZERO. -/
theorem test_div_low3 : (afterLow3 ((place 0 [0xA3, 8, 1]).setReg 0 6)).fault = some ⟨.divideByZero, 0, 0xA3, 0⟩ := by decide

/-- V-LD-1. -/
theorem test_ld :
    let t := after (((place 0 [0x83, 0x04, 0x02]).memWrite 0xF0 0x2C).setReg 2 0xF0)
    t.getReg 4 = 0x2C ∧ t.pc = 3 := by decide

/-- V-LD-2. -/
theorem test_ld_same_register :
    let t := after (place 0 [0x83, 0x01, 0x01])
    t.getReg 1 = 0x83 := by decide

/-- V-ST-1. -/
theorem test_st :
    let t := after (((place 0 [0x84, 0x02, 0x00]).setReg 2 0xF0).setReg 0 0x2C)
    t.memRead 0xF0 = 0x2C ∧ t.memRead 0x2C = 0 ∧ t.pc = 3 := by decide

/-- V-ST-3. -/
theorem test_st_own_opcode :
    let t := after ((place 0 [0x84, 0x01, 0x00]).setReg 0 1)
    t.memRead 0 = 1 ∧ t.pc = 3 ∧ t.status = .running := by decide

/-- V-PRN-2. -/
theorem test_prn :
    let t := after ((place 0 [0x47, 0x05]).setReg 5 255)
    t.out = [.dec 255] ∧ t.pc = 2 := by decide

/-- V-PRN-4. -/
theorem test_prn_bad_register :
    let t := after (place 0 [0x47, 0x08])
    t.fault = some ⟨.badRegister, 0, 0x47, 8⟩ ∧ t.status = .faulted ∧ t.pc = 0 ∧ t.out = [] := by decide

/-- V-PRA-2. -/
theorem test_pra :
    let t := after ((place 0 [0x48, 0x01]).setReg 1 0xE9)
    t.out = [.char 0xE9] ∧ t.pc = 2 := by decide

/-- V-PRN-2 and V-PRA-1: the text of events. -/
theorem test_event_text : (OutEvent.dec 255).text = ['2', '5', '5'] ∧ (OutEvent.dec 0).text = ['0'] ∧
    (OutEvent.char 72).text = ['H'] := by decide

/-- V-ADD-2. -/
theorem test_add_wraps :
    let t := after (((place 0 [0xA0, 0x00, 0x01]).setReg 0 200).setReg 1 100)
    t.getReg 0 = 44 ∧ t.getReg 1 = 100 ∧ t.pc = 3 := by decide

/-- V-INC-2. -/
theorem test_inc_wraps :
    let t := after ((place 0 [0x65, 0x00]).setReg 0 255)
    t.getReg 0 = 0 ∧ t.pc = 2 := by decide

/-- V-SUB-2. -/
theorem test_sub_masked :
    let t := after (((place 0 [0xA1, 0x04, 0x00]).setReg 4 44).setReg 0 132)
    t.getReg 4 = 168 := by decide

/-- V-FL-1. -/
theorem test_sub_keeps_flags :
    let t := after ((((place 0 [0xA1, 0x00, 0x01]).setReg 0 1).setReg 1 1).setFlags flL)
    t.getReg 0 = 0 ∧ t.fl = flL := by decide

/-- V-DEC-2. -/
theorem test_dec_wraps :
    let t := after (place 0 [0x66, 0x00])
    t.getReg 0 = 255 := by decide

/-- V-MUL-3. -/
theorem test_mul_wraps :
    let t := after (((place 0 [0xA2, 0x00, 0x01]).setReg 0 255).setReg 1 255)
    t.getReg 0 = 1 := by decide

/-- V-DIV-1. -/
theorem test_div :
    let t := after (((place 0 [0xA3, 0x00, 0x01]).setReg 0 10).setReg 1 3)
    t.getReg 0 = 3 ∧ t.pc = 3 := by decide

/-- V-DIV-5. -/
theorem test_div_by_zero :
    let t := after ((place 0 [0xA3, 0x00, 0x01]).setReg 0 10)
    t.fault = some ⟨.divideByZero, 0, 0xA3, 0⟩ ∧ t.status = .faulted ∧ t.pc = 0 ∧ t.getReg 0 = 10 := by decide

/-- V-MOD-2. -/
theorem test_mod :
    let t := after (((place 0 [0xA4, 0x00, 0x01]).setReg 0 3).setReg 1 10)
    t.getReg 0 = 3 := by decide

/-- V-PRI-3. -/
theorem test_mod_bad_register_first :
    let t := after ((place 0 [0xA4, 0x00, 0x0D]).setReg 0 4)
    t.fault = some ⟨.badRegister, 0, 0xA4, 0x0D⟩ ∧ t.status = .faulted ∧ t.pc = 0 := by decide

/-- V-PRI-2. -/
theorem test_priority_op1 :
    let t := after (place 0 [0xA3, 0x0C, 0x0D])
    t.fault = some ⟨.badRegister, 0, 0xA3, 0x0C⟩ ∧ t.status = .faulted ∧ t.pc = 0 := by decide

/-- V-ADDI-1: ADDI R3, 10 on 250. -/
theorem test_addi_wraps : (handle Config.standard (.addi 3 10) ((place 0 []).setReg 3 250)).getReg 3 = 4 := by decide

/-- V-SUBI-1: SUBI R1, 10 on 5. -/
theorem test_subi_wraps : (handle Config.standard (.subi 1 10) ((place 0 []).setReg 1 5)).getReg 1 = 251 := by decide

/-- R131, R134: ADDI and SUBI move pc past three bytes, whichever their codes are. -/
theorem test_open_codes_pc : (handle Config.standard (.addi 3 10) (place 254 [])).pc = 1 ∧
    (handle Config.standard (.subi 3 10) (place 254 [])).pc = 1 := by
  have ha := addiCode_fields Config.addiChoice
  have hs := subiCode_fields Config.addiChoice Config.subiChoice
  constructor
  · show (if setsPC opcAddi then _ else (254 : Byte) + BitVec.ofNat 8 (operandCount opcAddi + 1)) = 1
    simp [opcAddi, ha]
  · show (if setsPC opcSubi then _ else (254 : Byte) + BitVec.ofNat 8 (operandCount opcSubi + 1)) = 1
    simp [opcSubi, hs]

/-- V-SHL-1. -/
theorem test_shl :
    let t := after (((place 0 [0xAC, 0x00, 0x01]).setReg 0 0xB1).setReg 1 2)
    t.getReg 0 = 0xC4 := by decide

/-- V-SHL-3. -/
theorem test_shl_by_8 :
    let t := after (((place 0 [0xAC, 0x00, 0x01]).setReg 0 0xFF).setReg 1 8)
    t.getReg 0 = 0 := by decide

/-- V-SHR-1. -/
theorem test_shr :
    let t := after (((place 0 [0xAD, 0x00, 0x01]).setReg 0 0xB1).setReg 1 3)
    t.getReg 0 = 0x16 := by decide

/-- V-SHR-3. -/
theorem test_shr_by_255 :
    let t := after (((place 0 [0xAD, 0x00, 0x01]).setReg 0 0xFF).setReg 1 255)
    t.getReg 0 = 0 := by decide

/-- V-AND-1. -/
theorem test_and :
    let t := after (((place 0 [0xA8, 0x00, 0x01]).setReg 0 0xCC).setReg 1 0xAA)
    t.getReg 0 = 0x88 := by decide

/-- V-OR-1. -/
theorem test_or :
    let t := after (((place 0 [0xAA, 0x00, 0x01]).setReg 0 0xCC).setReg 1 0xAA)
    t.getReg 0 = 0xEE := by decide

/-- V-XOR-1. -/
theorem test_xor :
    let t := after (((place 0 [0xAB, 0x00, 0x01]).setReg 0 0xCC).setReg 1 0xAA)
    t.getReg 0 = 0x66 := by decide

/-- V-NOT-1. -/
theorem test_not :
    let t := after ((place 0 [0x69, 0x00]).setReg 0 0x0F)
    t.getReg 0 = 0xF0 ∧ t.pc = 2 := by decide

/-- V-CMP-4. -/
theorem test_cmp_unsigned :
    let t := after (((place 0 [0xA7, 0x00, 0x01]).setReg 0 0xFF).setReg 1 1)
    t.fl = flG ∧ t.fl.byte = 2 ∧ t.pc = 3 := by decide

/-- V-CMP-5. -/
theorem test_cmp_clears :
    let t := after (((place 0 [0xA7, 0x04, 0x04]).setReg 4 3).setFlags flL)
    t.fl = flE := by decide

/-- V-CMP-6. -/
theorem test_cmp_bad_register :
    let t := after ((place 0 [0xA7, 0x00, 0x08]).setFlags flG)
    t.fault = some ⟨.badRegister, 0, 0xA7, 8⟩ ∧ t.status = .faulted ∧ t.pc = 0 ∧ t.fl = flG := by decide

/-- V-J-19. -/
theorem test_jmp :
    let t := after (((place 16 [0x54, 0x02]).setReg 2 9).setFlags flL)
    t.pc = 9 ∧ t.fl = flL := by decide

/-- V-J-4, V-J-5: taken and not taken. -/
theorem test_jeq :
    (after (((place 16 [0x55, 0x02]).setReg 2 9).setFlags flE)).pc = 9 ∧
    (after (((place 16 [0x55, 0x02]).setReg 2 9).setFlags flG)).pc = 18 := by decide

/-- R163, V-J-7: taken and not taken. -/
theorem test_jne :
    (after (((place 16 [0x56, 0x02]).setReg 2 9).setFlags flG)).pc = 9 ∧
    (after (((place 16 [0x56, 0x02]).setReg 2 9).setFlags flE)).pc = 18 := by decide

/-- V-J-8, V-J-9: taken and not taken. -/
theorem test_jlt :
    (after (((place 20 [0x58, 0x03]).setReg 3 40).setFlags flL)).pc = 40 ∧
    (after (((place 20 [0x58, 0x03]).setReg 3 40).setFlags flE)).pc = 22 := by decide

/-- V-J-10, V-J-12: taken and not taken. -/
theorem test_jle :
    (after (((place 20 [0x59, 0x03]).setReg 3 40).setFlags flE)).pc = 40 ∧
    (after (((place 20 [0x59, 0x03]).setReg 3 40).setFlags flG)).pc = 22 := by decide

/-- V-J-13, V-J-14: taken and not taken. -/
theorem test_jgt :
    (after (((place 20 [0x57, 0x03]).setReg 3 40).setFlags flG)).pc = 40 ∧
    (after (((place 20 [0x57, 0x03]).setReg 3 40).setFlags flE)).pc = 22 := by decide

/-- V-J-15, V-J-16: taken and not taken. -/
theorem test_jge :
    (after (((place 20 [0x5A, 0x03]).setReg 3 40).setFlags flE)).pc = 40 ∧
    (after (((place 20 [0x5A, 0x03]).setReg 3 40).setFlags flL)).pc = 22 := by decide

/-- V-J-11. -/
theorem test_jle_less :
    let t := after (((place 20 [0x59, 0x03]).setReg 3 40).setFlags flL)
    t.pc = 40 := by decide

/-- R167. -/
theorem test_jge_greater :
    let t := after (((place 20 [0x5A, 0x03]).setReg 3 40).setFlags flG)
    t.pc = 40 := by decide

/-- V-J-18. -/
theorem test_jeq_bad_register_untaken :
    let t := after ((place 20 [0x55, 0x09]).setFlags flG)
    t.fault = some ⟨.badRegister, 20, 0x55, 9⟩ ∧ t.status = .faulted ∧ t.pc = 20 := by decide

/-- V-TERM-1 and V-TERM-2: a step request in a terminal state changes nothing. -/
theorem test_terminal : after { place 0 [0x01] with status := .halted } = { place 0 [0x01] with status := .halted } ∧
    after { place 0 [0x01] with status := .faulted } = { place 0 [0x01] with status := .faulted } := by decide

/-- The host's word: LDI R0, 8 placed at reset is what the very next step runs. -/
theorem test_withFetchWord : (after (State.reset.withFetchWord 24 0x080082)).getReg 0 = 8 ∧
    (after (State.reset.withFetchWord 8 0x01)).status = .halted := by decide

/-! ### Loading and the host -/

/-- V-LOAD-1 and V-LOAD-3: the default program. -/
theorem test_boot_default : (boot Config.standard none).map (fun s => s.window) = some [0x82, 0x00, 0x08] ∧
    boot Config.standard none = load [0x82, 0x00, 0x08, 0x47, 0x00, 0x01] State.reset := by decide

/-- V-LOAD-2: 257 bytes are refused. -/
theorem test_load_refused : load (List.replicate 257 1) State.reset = none := by
  rw [load, if_neg (by rw [List.length_replicate]; decide)]

/-- R194: a refused load sets neither status nor fault, and the host can inspect the state it leaves. -/
theorem test_load_refused_state (bytes : List Byte) : (Session.loadRefused (refusedLoad bytes State.reset)).state.status = .running ∧
    (Session.loadRefused (refusedLoad bytes State.reset)).state.fault = none := ⟨rfl, rfl⟩

/-- R201 and D13: no second load; R101: after a stop no cycle runs. -/
theorem test_host_moves : Session.moves Config.standard [.load [1], .load [1]] (.fresh State.reset) = none ∧
    Session.moves Config.standard [.stop, .step] (.fresh State.reset) = none ∧
    Session.moves Config.standard [.programMissing, .step] (.fresh State.reset) = none := by decide

/-- V-TR-2: the trace port wraps at 255. -/
theorem test_trace : ((place 254 [0xAB, 0xCD, 0x82]).setFlags flL).trace =
    ⟨0xFE, 4, 0xAB, 0xCD, 0x82, State.reset.x⟩ := by decide

/-- R207: the ports after a fault. -/
theorem test_ports : (after (place 0 [0x82, 8, 5])).ports = ⟨2, 3, 0, 0x82, 8⟩ := by decide

/-- R207: fault_kind and fault_info are 0 where there is no fault. -/
theorem test_ports_idle : (place 0 [0]).ports.faultKind = 0 ∧ (place 0 [0]).ports.faultInfo = 0 := ⟨rfl, rfl⟩

/-- S8: the loader's example, parsed at base 2. -/
theorem test_loader : parseText .reject defaultBase
    [['1', '0', '0', '0', ' ', '0', '0', '1', '0', ' ', '#', ' ', 'c'], ['0', '0', '0', '0', '0', '0', '0', '0'],
     ['0', '0', '0', '0', '1', '0', '0', '0']] = some [0x82, 0x00, 0x08] := by decide

/-- R204: blank and unparseable lines are skipped; a literal of 256 goes by the policy. -/
theorem test_loader_skips : parseText .skip 10 [[], ['x'], ['2', '5', '6'], ['9']] = some [9] ∧
    parseText .reject 10 [['2', '5', '6']] = none := by decide

/-! ### Witnesses: the hypotheses of each statement are met -/

/-- The standard parameters with the concrete table `table80`, and the same with HLT's bit 4 set. -/
def config80 : Config := { Config.standard with table := table80 }
/-- As `config80`. -/
def configHlt : Config := { Config.standard with table := recoded .hlt 0x10 }
/-- As `config80`, with policy `low3`. -/
def configLow3 : Config := { config80 with regIndexPolicy := .low3 }
/-- The default program loaded. -/
def booted : State := { State.reset with mem := Memory.writeBytes [] 0 [0x82, 0x00, 0x08, 0x47, 0x00, 0x01] }

/-- DecodeGivesBackWhatEncodeWrites, EverySessionKeepsTheInvariant, OnlyHltHalts and the others over legal tables. -/
theorem witness_legal_table : config80.table.Legal ∧ configHlt.table.Legal := by decide

/-- DecodedBytesAreTheEncoding. -/
theorem witness_decode : decode table80 [0x82, 0, 8, 0x47] = .ok (.ldi 0 8, [0x47]) ∧
    decode table80 [0x01] = .ok (.hlt, []) := ⟨rfl, rfl⟩

/-- ResolveFindsTheMnemonicOfACode: a code, an unknown byte, and a running state at one. -/
theorem witness_resolve : table80.Legal ∧ resolve table80 0xA0 = some .add ∧ resolve table80 0xFF = none ∧
    config80.table = table80 ∧ (place 0 [0xFF]).status = .running ∧ (place 0 [0xFF]).memRead (place 0 [0xFF]).pc = 0xFF :=
  ⟨by decide, rfl, rfl, rfl, rfl, rfl⟩

/-- CountThreeIsUnknown, at both ends of its range. -/
theorem witness_count_three : table80.Legal ∧ operandCount 0xC0 = 3 ∧ operandCount 0xFF = 3 ∧ operandCount 0xBF = 2 := by decide

/-- OpenCodesRangeOverEveryLegalChoice: a legal pair, the last of the range. -/
theorem witness_open_codes : (defaultTableWith 0xAF 0xAE).Legal ∧ addiCode 17 = 0xAF ∧ subiCode 17 16 = 0xAE := by decide

/-- StepRunsTheDecodedInstruction, also where the operands wrap. -/
theorem witness_step_decodes : (place 254 [0x82, 0, 7]).status = .running ∧
    decode Config.standard.table [(place 254 [0x82, 0, 7]).memRead 254, (place 254 [0x82, 0, 7]).memRead 255,
      (place 254 [0x82, 0, 7]).memRead 0] = .ok (.ldi 0 7, []) := ⟨rfl, rfl⟩

/-- UnknownOpcodeFaults. -/
theorem witness_unknown : (place 10 [0xFF]).status = .running ∧
    ∀ m, Config.standard.table m ≠ (place 10 [0xFF]).memRead (place 10 [0xFF]).pc := by
  refine ⟨rfl, fun m => ?_⟩
  have ha : ∀ i, addiCode i ≠ 0xFF := by decide
  have hs : ∀ i j, subiCode i j ≠ 0xFF := by decide +kernel
  cases m with
  | addi => exact ha _
  | subi => exact hs _ _
  | _ => decide

/-- TerminalStatesNeverChange, each clause. -/
theorem witness_terminal : (after (place 0 [0x01])).status = .halted ∧ (after (place 0 [0xFF])).status = .faulted := by decide

/-- CycleHasThreeOutcomes, ZeroMemoryRunsForever and ResetStateIsAllZero: the reset state. -/
theorem witness_reset_runs : State.reset.status = .running ∧ State.reset.fault = none ∧ ∀ a, State.reset.memRead a = 0 :=
  ⟨rfl, rfl, fun _ => rfl⟩

/-- ProgramCounterAfterACycle: bit 4 clear, and set. -/
theorem witness_pc_after : (place 255 [0x47, 0]).status = .running ∧
    step (place 255 [0x47, 0]) = .next (after (place 255 [0x47, 0])) ∧ (after (place 255 [0x47, 0])).status ≠ .faulted ∧
    setsPC ((place 255 [0x47, 0]).memRead 255) = false ∧ (after (place 255 [0x54, 0])).status ≠ .faulted ∧
    setsPC ((place 255 [0x54, 0]).memRead 255) = true := by
  refine ⟨rfl, rfl, ?_⟩
  decide

/-- OnlyHltHalts: a running state at HLT and one at NOP. -/
theorem witness_halts : (place 5 [0x10]).status = .running ∧ (place 5 [0x10]).memRead 5 = configHlt.table .hlt ∧
    (place 5 [0]).memRead 5 ≠ configHlt.table .hlt := by decide

/-- JumpToItselfRunsForever. -/
theorem witness_jump_to_itself : ((place 16 [0x54, 7]).setReg 7 16).status = .running ∧
    ((place 16 [0x54, 7]).setReg 7 16).memRead 16 = 0x54 ∧ ((place 16 [0x54, 7]).setReg 7 16).memRead 17 = regByte 7 ∧
    ((place 16 [0x54, 7]).setReg 7 16).getReg 7 = 16 := by decide

/-- StStoresOneByte, MemoryChangesOnlyWhereStStores, LoadWritesExactlyItsBytes: a canonical memory that is not empty. -/
theorem witness_memory_wf : booted.mem.wf ∧ booted.mem ≠ [] := by decide

/-- The clauses of the instruction rules on operands that name no register, at the ends of their ranges. -/
theorem witness_bad_operands : 8 ≤ (8 : Byte).toNat ∧ 8 ≤ (255 : Byte).toNat ∧ (7 : Byte).toNat < 8 ∧ (0 : Byte).toNat < 8 := by
  decide

/-- ConditionalJumpsFollowTheFlags: flags that meet and that miss each condition. -/
theorem witness_conditions : (flE.equal = true ∧ flG.equal = false) ∧ (flL.less = true ∧ flE.less = false) ∧
    (flG.greater = true ∧ flL.greater = false) ∧ ¬ (flG.less = true ∨ flG.equal = true) ∧
    ¬ (flL.greater = true ∨ flL.equal = true) := by decide

/-- DivModDivideOrFault and QuotientAndRemainderRecompose: a divisor that is not 0, with both results, and one that is 0. -/
theorem witness_divisor : (State.reset.setReg 1 1).getReg 1 ≠ 0 ∧ State.reset.getReg 1 = 0 ∧
    (∃ t, exec (.div (regByte 0) (regByte 1)) (State.reset.setReg 1 1) = .next t) ∧
    ∃ u, exec (.mod (regByte 0) (regByte 1)) (State.reset.setReg 1 1) = .next u :=
  ⟨by decide, by decide, ⟨_, rfl⟩, ⟨_, rfl⟩⟩

/-- LoadAfterStoreGivesTheStoredByte. -/
theorem witness_load_after_store : State.reset.mem.wf ∧ ∃ t u, exec (.st (regByte 1) (regByte 2)) State.reset = .next t ∧
    State.reset.getReg 3 = State.reset.getReg 1 ∧ exec (.ld (regByte 4) (regByte 3)) t = .next u :=
  ⟨by decide, _, _, rfl, by decide, rfl⟩

/-- OnlyCmpWritesTheFlags: an instruction that is no CMP, and a CMP. -/
theorem witness_flags_written : (∃ t, exec (.sub 0 1) State.reset = .next t) ∧ (∀ a b, Instr.sub 0 1 ≠ .cmp a b) ∧
    ∃ t, exec (.cmp (regByte 0) (regByte 7)) State.reset = .next t :=
  ⟨⟨_, rfl⟩, fun _ _ => by simp, ⟨_, rfl⟩⟩

/-- OnlyConditionalJumpsReadTheFlags: an instruction that reads none, and JLE with the flags it reads the same. -/
theorem witness_flags_read : agreeOnFlagsRead (.add 0 1) State.reset.fl flG ∧ agreeOnFlagsRead (.jle 0) State.reset.fl flG ∧
    (∃ t, exec (.jle 0) State.reset = .next t) ∧ ∃ u, exec (.jle 0) { State.reset with fl := flG } = .next u :=
  ⟨trivial, ⟨rfl, rfl⟩, ⟨_, rfl⟩, ⟨_, rfl⟩⟩

/-- OnlyTheDestinationRegisterChanges: a register that changes. -/
theorem witness_destination : ∃ t, exec (.ldi 7 1) State.reset = .next t ∧ t.getReg 7 ≠ State.reset.getReg 7 :=
  ⟨_, rfl, by decide⟩

/-- MemoryChangesOnlyWhereStStores: an instruction that stores nothing, a ST seen at another address, and a ST that faults on op2,
seen at the address in x[op1]. -/
theorem witness_memory_frame : storeAddress Config.standard booted (.add 0 1) ≠ some 0 ∧
    storeAddress Config.standard booted (.st 0 1) = some 0 ∧ storeAddress Config.standard booted (.st 0 1) ≠ some 255 ∧
    storeAddress Config.standard booted (.st 7 8) = none ∧ storeAddress Config.standard booted (.st 8 7) = none ∧
    (∃ t, exec (.add 0 1) booted = .next t) ∧ (∃ t, exec (.st 0 1) booted = .next t) ∧ ∃ t, exec (.st 7 8) booted = .next t :=
  ⟨by decide, by decide, by decide, by decide, by decide, ⟨_, rfl⟩, ⟨_, rfl⟩, ⟨_, rfl⟩⟩

/-- OutputIsOnlyAppendedTo. -/
theorem witness_output : (∃ t, exec (.prn 0) State.reset = .next t) ∧ ∃ t, exec (.nop) State.reset = .next t := ⟨⟨_, rfl⟩, ⟨_, rfl⟩⟩

/-- HandlerWritesAtMostOneThing: a ST, its address and the register it stores; a destination. -/
theorem witness_handler_writes : storeAddress Config.standard booted (.st 7 0) = some 0 ∧ regOf Config.standard 0 = some 0 ∧
    handlerFault Config.standard booted (.st 7 0) = none ∧ destination (.ldi 7 1) = some 7 ∧ regOf Config.standard 7 = some 7 := by
  decide

/-- HandlerWritesAtMostOneThing: each branch of its match. -/
theorem witness_handler_fault : handlerFault Config.standard State.reset (.add 7 7) = none ∧
    handlerFault Config.standard State.reset (.add 7 8) = some (.badRegister, 8) ∧
    handlerFault Config.standard State.reset (.div 0 0) = some (.divideByZero, 0) := by decide

/-- FirstFaultByPriority and FaultsArePrecise: each kind of fault, and none, from a running state. -/
theorem witness_cycle_fault : cycleFault Config.standard (place 0 [0xFF]) = some (.unknownOpcode, 0) ∧
    cycleFault Config.standard (place 0 [0xA3, 12, 13]) = some (.badRegister, 12) ∧
    cycleFault Config.standard (place 0 [0xA3, 0, 13]) = some (.badRegister, 13) ∧
    cycleFault Config.standard (place 0 [0xA3, 0, 1]) = some (.divideByZero, 0) ∧
    cycleFault Config.standard (place 0 [0x00]) = none ∧ (place 0 [0xFF]).status = .running ∧
    step (place 0 [0xFF]) = .next (after (place 0 [0xFF])) ∧ (after (place 0 [0xFF])).status = .faulted := by
  refine ⟨by decide, by decide, by decide, by decide, by decide, rfl, rfl, by decide⟩

/-- BadRegisterDependsOnThePolicy: op1, op2, and the second clause's two ways. -/
theorem witness_bad_register : config80.regIndexPolicy = .fault ∧
    ((Instr.jeq 8).registerOperands.find? fun b => decide (8 ≤ b.toNat)) = some 8 ∧
    ((Instr.ld 7 255).registerOperands.find? fun b => decide (8 ≤ b.toNat)) = some 255 ∧
    (Instr.ldi 7 255).wellFormed = true ∧ configLow3.regIndexPolicy = .low3 ∧
    (∃ r, (handle configLow3 (.inc 8) { State.reset with fault := some ⟨.badRegister, 0, 0, 8⟩ }).fault = some r ∧
      r.kind = .badRegister) := by
  refine ⟨rfl, by decide, by decide, by decide, rfl, ?_⟩
  exact ⟨⟨.badRegister, 0, 0, 8⟩, by decide⟩

/-- Low3UsesTheLowBits. -/
theorem witness_low3 : configLow3.regIndexPolicy = .low3 := rfl

/-- HandlersDependOnTheTableOnlyInTheRecord: two legal tables that differ, with the same bit 4 for HLT. -/
theorem witness_two_tables : config80.table.Legal ∧ (recoded .hlt 0x02).Legal ∧
    setsPC (config80.table .hlt) = setsPC (recoded .hlt 0x02 .hlt) ∧ config80.table .hlt ≠ recoded .hlt 0x02 .hlt ∧
    config80.regIndexPolicy = ({ config80 with table := recoded .hlt 0x02 } : Config).regIndexPolicy := by decide

/-- EveryStepKeepsTheInvariant: a state with memory, registers and flags that meets the invariant, and a step from it. -/
theorem witness_invariant : ({ booted with fl := flG, pc := 3 } : State).Inv Config.standard ∧
    ∃ t, step { booted with fl := flG, pc := 3 } = .next t := by
  refine ⟨⟨by decide, by decide, by decide, fun r hr => ?_⟩, _, rfl⟩
  cases hr

/-- PortsShowStatusFaultAndEvent: a Faulted state that meets the invariant. -/
theorem witness_invariant_faulted : (after (place 0 [0x82, 8, 5])).Inv Config.standard ∧
    (after (place 0 [0x82, 8, 5])).fault = some ⟨.badRegister, 0, 0x82, 8⟩ := by
  refine ⟨⟨by decide, by decide, by decide, fun r hr => ?_⟩, by decide⟩
  have h : (after (place 0 [0x82, 8, 5])).fault = some ⟨.badRegister, 0, 0x82, 8⟩ := by decide
  rw [h] at hr
  cases hr
  exact ⟨by decide, by decide, fun hk => by simp at hk, fun hk => by simp at hk, fun _ => by decide⟩

/-- PortsShowStatusFaultAndEvent: a state without a fault that meets the invariant. -/
theorem witness_invariant_reset (c : Config) : State.reset.Inv c ∧ State.reset.fault = none :=
  ⟨⟨by decide, by decide, by decide, fun r hr => by cases hr⟩, rfl⟩

/-- StoreIsSeenByTheNextFetch: a ST over its own opcode. -/
theorem witness_store_fetch : (place 0 [0x84, 1, 0]).status = .running ∧ (place 0 [0x84, 1, 0]).mem.wf ∧
    (place 0 [0x84, 1, 0]).window = [0x84, regByte 1, regByte 0] := by decide

/-- LoadWritesExactlyItsBytes: lengths at both sides of the limit. -/
theorem witness_load_lengths : (List.replicate 256 (1 : Byte)).length ≤ 256 ∧ 256 < (List.replicate 257 (1 : Byte)).length := by
  rw [List.length_replicate, List.length_replicate]; decide

/-- HostLoadsOnceBeforeTheFirstCycle and EverySessionKeepsTheInvariant: a reset after a run, and then a load. -/
theorem witness_session : Session.moves config80 [.load [1], .step, .reset] (.fresh State.reset) = some (.fresh State.reset) ∧
    (∃ z, Session.move config80 (.load [1]) (.fresh State.reset) = some z) ∧
    (Session.fresh State.reset).state = State.reset := by
  refine ⟨by decide, ⟨_, rfl⟩, rfl⟩

/-- HostLoadsOnceBeforeTheFirstCycle: a load that is refused. -/
theorem witness_session_refused : Session.move config80 (.load (List.replicate 257 1)) (.fresh State.reset) =
    some (.loadRefused (refusedLoad (List.replicate 257 1) State.reset)) := by
  rw [Session.move, load_of_lt (by rw [List.length_replicate]; decide)]

/-- EverySessionKeepsTheInvariant: a session with a program loaded meets the invariant, and a move is admitted from it. -/
theorem witness_session_inv : (Session.loaded booted).Inv config80 ∧
    Session.move config80 .step (.loaded booted) = some (.started (stepUnder config80 booted)) := by
  refine ⟨⟨⟨by decide, by decide, by decide, fun r hr => by cases hr⟩, fun s hs => ?_, fun s hs => ?_⟩, rfl⟩
  · rcases hs with hs | hs <;> cases hs
  · rcases hs with hs | hs <;> cases hs; rfl

/-- CommentsAndSpacesDoNotCount. -/
theorem witness_comment : '#' ∉ ['1', '0'] ∧ ' '.isWhitespace = true := by decide

end Sys2Proof.Tests
end

section
/-! PROOFS. The scope (spec 00_scope.md): the three outcomes of a cycle (R12), the register index policy `low3` (R11), and the standard
machine as the configured machine at the default parameters (R6). -/

namespace Sys2Proof.Machine

/-! ### What an effect leaves unchanged, and everything a cycle can do -/

/-- The fault record is no part of any instruction's effect. -/
theorem Effect.fault_eq {c : Config} {i : Instr} {s t : State} (h : Effect c i s t) : t.fault = s.fault := by
  cases h <;> rfl

/-- Only HLT's effect writes status (40_cycle.md R98). -/
theorem Effect.status_eq {c : Config} {i : Instr} {s t : State} (h : Effect c i s t) :
    t.status = if i = .hlt then .halted else s.status := by
  cases h with
  | hlt => simp
  | register b r v dest names =>
    have hi : i ≠ .hlt := by rintro rfl; cases dest
    simp [hi]
  | jump b r p isJump operand names target =>
    have hi : i ≠ .hlt := by rintro rfl; cases isJump
    simp [hi]
  | nop | store | printDec | printChar | compare => simp

/-- Everything a cycle can do: the first fault by priority, with the opcode byte at pc in the record, or the effect of the
instruction fetched. -/
theorem stepUnder_running_cases {c : Config} {s : State} (h : s.status = .running) :
    (∃ kind info, cycleFault c s = some (kind, info) ∧ stepUnder c s = faultedState s kind s.opcode info) ∨
    ∃ i, fetchInstr c.table s = some i ∧ cycleFault c s = none ∧ Effect c i s (stepUnder c s) := by
  rcases stepUnder_running (c := c) h with ⟨hf, ht⟩ | ⟨i, hf, ht⟩
  · exact .inl ⟨_, _, by simp [cycleFault, hf], ht⟩
  · have hc : cycleFault c s = handlerFault c s i := by simp [cycleFault, hf]
    rcases handle_spec c i s with ⟨hn, he⟩ | ⟨kind, info, hk, he⟩
    · exact .inr ⟨i, hf, hc.trans hn, ht ▸ he⟩
    · exact .inl ⟨kind, info, hc.trans hk, by rw [ht, he, (fetchInstr_some hf).1]⟩

/-! ### The standard machine is the configured machine at the default parameters -/

/-- One step of the standard machine. -/
theorem step_eq_stepUnder (s : State) : step s = .next (stepUnder Config.standard s) := by
  unfold step stepUnder
  cases s.status with
  | running =>
    cases fetchInstr Config.standard.table s with
    | none => rfl
    | some i => exact exec_eq_handle i s
  | halted | faulted => rfl

/-- A run of the standard machine through the host's interface. -/
theorem core_run_eq_runUnder (k : Nat) (s : State) : Host.Core.run core k s = .next (runUnder Config.standard k s) := by
  induction k generalizing s with
  | zero => rfl
  | succ k ih => exact (run_succ core k s _ (step_eq_stepUnder s)).trans (ih _)

/-- Settles O47: one step by the cases of `step`, a run by induction on the number of step requests. -/
theorem stepIsTheConfiguredStepAtTheDefaults : Obligations.StepIsTheConfiguredStepAtTheDefaults :=
  fun s k => ⟨step_eq_stepUnder s, core_run_eq_runUnder k s⟩

/-! ### The three outcomes of a cycle -/

/-- Settles O11: a cycle faults with a record, or has the effect of the fetched instruction, which writes no record and writes
status only for HLT. -/
theorem cycleHasThreeOutcomes : Obligations.CycleHasThreeOutcomes := by
  intro s hrun hrec
  refine ⟨_, step_eq_stepUnder s, ?_⟩
  rcases stepUnder_running_cases (c := Config.standard) hrun with ⟨kind, info, -, ht⟩ | ⟨i, -, -, he⟩
  · rw [ht]
    exact .inr (.inr ⟨rfl, _, rfl⟩)
  · have hfault := he.fault_eq.trans hrec
    have hstatus := he.status_eq
    by_cases hi : i = .hlt
    · exact .inr (.inl ⟨by rw [hstatus, if_pos hi], hfault⟩)
    · exact .inl ⟨by rw [hstatus, if_neg hi, hrun], hfault⟩

/-! ### The policy low3 -/

/-- Under `low3` a byte names the register its low three bits name. -/
theorem regOf_and_seven {c : Config} (hc : c.regIndexPolicy = .low3) (b : Byte) : regOf c (b &&& 7) = regOf c b := by
  have h7 : (b &&& 7) &&& 7#8 = b &&& 7#8 := BitVec.and_assoc b 7 7#8
  rw [regOf_low3 hc, regOf_low3 hc, h7]

/-- Under `low3` a handler with one register operand is the handler at its low three bits: the byte is not seen again, since no
BAD_REGISTER is raised. -/
theorem withReg_and_seven {c : Config} (hc : c.regIndexPolicy = .low3) (m : Mnemonic) (b : Byte) (s : State)
    (k : Fin 8 → State) : withReg c m b s k = withReg c m (b &&& 7) s k := by
  have hb := regOf_low3 hc b
  rw [withReg_of_some hb, withReg_of_some ((regOf_and_seven hc b).trans hb)]

/-- As `withReg_and_seven`, for both operands of a handler with two. -/
theorem withRegs_and_seven {c : Config} (hc : c.regIndexPolicy = .low3) (m : Mnemonic) (a b : Byte) (s : State)
    (k : Fin 8 → Fin 8 → State) : withRegs c m a b s k = withRegs c m (a &&& 7) (b &&& 7) s k := by
  simp only [withRegs, ← withReg_and_seven hc]

/-- Settles O43, by the format of the mnemonic: which operands its handler reads as registers. -/
theorem low3UsesTheLowBits : Obligations.Low3UsesTheLowBits := by
  intro c s m op1 op2 hc
  cases m with
  | nop | hlt => rfl
  | prn | pra | inc | dec | not | jmp | jeq | jne | jlt | jle | jgt | jge | ldi | addi | subi =>
    exact withReg_and_seven hc _ op1 s _
  | ld | st | add | sub | mul | div | mod | shl | shr | and | or | xor | cmp => exact withRegs_and_seven hc _ op1 op2 s _

end Sys2Proof.Machine
end

section
/-! PROOFS. The state (spec 10_state.md): what an instruction's effect does to each field, the flags as a source that only the
conditional jumps read (R30), the state after reset (R40), and the invariant that every step keeps (R29, R33, R35). -/

namespace Sys2Proof.Machine

/-! ### What exec can do -/

/-- An instruction of the standard machine has its effect, or raises a fault. -/
theorem exec_next_cases {i : Instr} {s t : State} (h : exec i s = .next t) :
    Effect Config.standard i s t ∨ ∃ kind op info, t = faultedState s kind op info := by
  rw [exec_eq_handle] at h
  cases h
  rcases handle_spec Config.standard i s with ⟨-, he⟩ | ⟨kind, info, -, ht⟩
  · exact .inl he
  · exact .inr ⟨kind, _, info, ht⟩

/-! ### The fields of an effect -/

/-- The flags after an effect are those before it, or CMP's of two values (10_state.md R29). -/
theorem Effect.fl_cases {c : Config} {i : Instr} {s t : State} (h : Effect c i s t) :
    t.fl = s.fl ∨ ∃ a b va vb, i = .cmp a b ∧ t.fl = compareFlags va vb := by
  cases h with
  | compare a b ra rb => exact .inr ⟨a, b, _, _, rfl, rfl⟩
  | nop | hlt | register | store | printDec | printChar | jump => exact .inl rfl

/-- A register that an effect changes is the destination (10_state.md R22). -/
theorem Effect.destination_of_getReg_ne {c : Config} {i : Instr} {s t : State} (h : Effect c i s t) {q : Fin 8}
    (hq : t.getReg q ≠ s.getReg q) : ∃ b, destination i = some b ∧ regOf c b = some q := by
  cases h with
  | register b r v dest names =>
    have hqr : q = r := by
      by_contra hne
      exact hq (by rw [State.getReg_advance, State.getReg_setReg, if_neg hne])
    exact ⟨b, dest, hqr ▸ names⟩
  | nop | hlt | store | printDec | printChar | compare | jump => exact absurd rfl hq

/-- The output channel after an effect: as it was, or with PRN's or PRA's one event at its end (10_state.md R36). -/
theorem Effect.out_cases {c : Config} {i : Instr} {s t : State} (h : Effect c i s t) :
    t.out = s.out ∨
      (∃ b r, i = .prn b ∧ regOf c b = some r ∧ t.out = s.out ++ [.dec (s.getReg r)]) ∨
      (∃ b r, i = .pra b ∧ regOf c b = some r ∧ t.out = s.out ++ [.char (s.getReg r)]) := by
  cases h with
  | printDec b r names => exact .inr (.inl ⟨b, r, rfl, names, rfl⟩)
  | printChar b r names => exact .inr (.inr ⟨b, r, rfl, names, rfl⟩)
  | nop | hlt | register | store | compare | jump => exact .inl rfl

/-- An effect keeps memory canonical (10_state.md R33). -/
theorem Effect.mem_wf {c : Config} {i : Instr} {s t : State} (h : Effect c i s t) (hs : s.mem.wf) : t.mem.wf := by
  cases h with
  | store a b ra rb => exact State.memWrite_wf hs _ _
  | nop | hlt | register | printDec | printChar | compare | jump => exact hs

/-- An effect makes no running state Faulted. -/
theorem Effect.status_ne_faulted {c : Config} {i : Instr} {s t : State} (h : Effect c i s t) (hs : s.status = .running) :
    t.status ≠ .faulted := by
  rw [h.status_eq, hs]
  split <;> decide

/-! ### The registers, the output channel and the state after reset -/

/-- Settles O36: a fault changes no register, and an effect only its destination. -/
theorem onlyTheDestinationRegisterChanges : Obligations.OnlyTheDestinationRegisterChanges := by
  intro i s t r h hr
  rcases exec_next_cases h with he | ⟨kind, op, info, rfl⟩
  · exact he.destination_of_getReg_ne hr
  · exact absurd rfl hr

/-- Settles O38: a fault appends nothing, and an effect at most PRN's or PRA's event. -/
theorem outputIsOnlyAppendedTo : Obligations.OutputIsOnlyAppendedTo := by
  refine ⟨fun i s t h => ?_, rfl⟩
  rcases exec_next_cases h with he | ⟨kind, op, info, rfl⟩
  · exact he.out_cases
  · exact .inl rfl

/-- Settles O49: each field of the reset state as R40 states it. -/
theorem resetStateIsAllZero : Obligations.ResetStateIsAllZero := by
  have hreg : ∀ r : Fin 8, State.reset.getReg r = 0 := by decide
  exact ⟨hreg, rfl, rfl, fun _ => rfl, rfl, rfl, rfl, rfl⟩

/-! ### The flags are written by CMP alone -/

/-- CMP's flags: exactly one is true, by the trichotomy of the unsigned order (45_compare_jump.md R160). -/
theorem compareFlags_cases (va vb : Byte) :
    compareFlags va vb = ⟨true, false, false⟩ ∨ compareFlags va vb = ⟨false, true, false⟩ ∨
      compareFlags va vb = ⟨false, false, true⟩ := by
  unfold compareFlags
  rcases lt_trichotomy va.toNat vb.toNat with h | h | h
  · exact .inr (.inr (by simp [h, h.ne, h.le]))
  · exact .inl (by simp [h])
  · exact .inr (.inl (by simp [h, h.ne', h.le]))

/-- CMP of two registers writes the flags of their values, then runs step 6. -/
theorem exec_cmp_regByte (ra rb : Fin 8) (s : State) :
    exec (.cmp (regByte ra) (regByte rb)) s = .next
      ((s.setFlags (compareFlags (s.getReg ra) (s.getReg rb))).advance (Config.standard.table .cmp) s.pc) := by
  rw [exec_eq_handle, handle, handleCmp, withRegs, withReg_of_some (regOf_regByte _ ra), withReg_of_some (regOf_regByte _ rb)]

/-- Settles O34: no other effect and no fault writes the flags, and CMP's are one of three. -/
theorem onlyCmpWritesTheFlags : Obligations.OnlyCmpWritesTheFlags := by
  refine ⟨fun i s t h hi => ?_, fun ra rb s t h => ?_, rfl⟩
  · rcases exec_next_cases h with he | ⟨kind, op, info, rfl⟩
    · rcases he.fl_cases with hfl | ⟨a, b, va, vb, hcmp, -⟩
      · exact hfl
      · exact absurd hcmp (hi a b)
    · rfl
  · rw [exec_cmp_regByte] at h
    cases h
    exact compareFlags_cases _ _

/-! ### The flags are read by the conditional jumps alone -/

@[simp] theorem State.getReg_setFlags (s : State) (f : Flags) (r : Fin 8) : (s.setFlags f).getReg r = s.getReg r := rfl

/-- Two states differ in nothing but the flags. -/
def AgreeButFlags (t u : State) : Prop := u.setFlags t.fl = t

/-- A register operand is read without the flags: what the handler does with it decides. -/
theorem AgreeButFlags.withReg {s : State} {f : Flags} {k l : Fin 8 → State} (h : ∀ r, AgreeButFlags (k r) (l r))
    (c : Config) (m : Mnemonic) (b : Byte) :
    AgreeButFlags (withReg c m b s k) (withReg c m b (s.setFlags f) l) := by
  cases hb : regOf c b with
  | some r => rw [withReg_of_some hb, withReg_of_some hb]; exact h r
  | none => rw [withReg_of_none hb, withReg_of_none hb]; rfl

/-- As `AgreeButFlags.withReg`, for two register operands. -/
theorem AgreeButFlags.withRegs {s : State} {f : Flags} {k l : Fin 8 → Fin 8 → State}
    (h : ∀ ra rb, AgreeButFlags (k ra rb) (l ra rb)) (c : Config) (m : Mnemonic) (a b : Byte) :
    AgreeButFlags (withRegs c m a b s k) (withRegs c m a b (s.setFlags f) l) :=
  .withReg (fun ra => .withReg (h ra) c m b) c m a

/-- DIV and MOD read no flag: the zero divisor is found in the registers. -/
theorem AgreeButFlags.divisive (c : Config) (m : Mnemonic) (g : Byte → Byte → Byte) (a b : Byte) (s : State) (f : Flags) :
    AgreeButFlags (divisive c m g a b s) (divisive c m g a b (s.setFlags f)) := by
  refine .withRegs (fun ra rb => ?_) c m a b
  rw [State.getReg_setFlags, State.getReg_setFlags]
  split <;> rfl

/-- A jump reads the flags through its condition alone. -/
theorem AgreeButFlags.jumpIf {cond : Flags → Bool} {s : State} {f : Flags} (h : cond s.fl = cond f) (c : Config)
    (m : Mnemonic) (b : Byte) : AgreeButFlags (jumpIf c m cond b s) (jumpIf c m cond b (s.setFlags f)) := by
  refine .withReg (fun r => ?_) c m b
  rw [h]
  rfl

/-- Where the flags an instruction reads are the same, its handler does the same to the rest of the state (10_state.md R30). -/
theorem AgreeButFlags.handle {i : Instr} {s : State} {f : Flags} (h : agreeOnFlagsRead i s.fl f) (c : Config) :
    AgreeButFlags (handle c i s) (handle c i (s.setFlags f)) := by
  cases i with
  | nop | hlt => rfl
  | ldi r | prn r | pra r | addi r | inc r | subi r | dec r | not r => exact .withReg (fun _ => by rfl) c _ r
  | ld a b | st a b | add a b | sub a b | mul a b | shl a b | shr a b | and a b | or a b | xor a b | cmp a b =>
    exact .withRegs (fun _ _ => by rfl) c _ a b
  | div a b | mod a b => exact .divisive c _ _ a b s f
  | jmp r => exact .jumpIf (cond := condAlways) (s := s) (f := f) rfl c _ r
  | jeq r => exact .jumpIf (cond := condEqual) h c _ r
  | jne r => exact .jumpIf (cond := condNotEqual) (congrArg Bool.not h) c _ r
  | jlt r => exact .jumpIf (cond := condLess) h c _ r
  | jle r => exact .jumpIf (cond := condLessOrEqual) (congrArg₂ Bool.or h.1 h.2) c _ r
  | jgt r => exact .jumpIf (cond := condGreater) h c _ r
  | jge r => exact .jumpIf (cond := condGreaterOrEqual) (congrArg₂ Bool.or h.1 h.2) c _ r

/-- Settles O35, by the shape of each handler: none but the conditional jumps has a condition over the flags. -/
theorem onlyConditionalJumpsReadTheFlags : Obligations.OnlyConditionalJumpsReadTheFlags := by
  intro i s t u f hread ht hu
  rw [exec_eq_handle] at ht hu
  cases ht
  cases hu
  exact AgreeButFlags.handle hread Config.standard

/-! ### The faults that set a record -/

/-- A register operand of a fetched instruction is its op1 or its op2 (30_encoding.md R74). -/
theorem Mnemonic.mem_registerOperands_instr {m : Mnemonic} {op1 op2 b : Byte}
    (h : b ∈ (m.instr op1 op2).registerOperands) : b = op1 ∨ b = op2 := by
  cases m with
  | nop | hlt => cases h
  | ldi | prn | pra | addi | inc | subi | dec | not | jmp | jeq | jne | jlt | jle | jgt | jge =>
    exact .inl (List.mem_singleton.mp h)
  | ld | st | add | sub | mul | div | mod | shl | shr | and | or | xor | cmp =>
    simpa [Mnemonic.instr, Instr.registerOperands] using h

/-- The fetched instruction that divides by zero is DIV or MOD, and its op2 names a register that holds 0. -/
theorem Mnemonic.dividesByZero_instr {c : Config} {s : State} {m : Mnemonic} {op1 op2 : Byte}
    (h : dividesByZero c s (m.instr op1 op2) = true) :
    (m = .div ∨ m = .mod) ∧ ∃ rb, regOf c op2 = some rb ∧ s.getReg rb = 0 := by
  cases m with
  | div => exact ⟨.inl rfl, by simpa [dividesByZero, Mnemonic.instr, Option.any_eq_true] using h⟩
  | mod => exact ⟨.inr rfl, by simpa [dividesByZero, Mnemonic.instr, Option.any_eq_true] using h⟩
  | nop | hlt | ldi | prn | pra | addi | inc | subi | dec | not | jmp | jeq | jne | jlt | jle | jgt | jge => cases h
  | ld | st | add | sub | mul | shl | shr | and | or | xor | cmp => cases h

/-- The faults a handler can raise: BAD_REGISTER for a register operand that names none, DIVIDE_BY_ZERO with info 0. -/
theorem handlerFault_cases {c : Config} {s : State} {i : Instr} {kind : FaultKind} {info : Byte}
    (h : handlerFault c s i = some (kind, info)) :
    (kind = .badRegister ∧ info ∈ i.registerOperands ∧ regOf c info = none) ∨
    (kind = .divideByZero ∧ info = 0 ∧ dividesByZero c s i = true) := by
  unfold handlerFault at h
  split at h
  next b hb =>
    cases h
    exact .inl ⟨rfl, List.mem_of_find?_eq_some hb, by simpa using List.find?_some hb⟩
  next =>
    split at h
    next hz => cases h; exact .inr ⟨rfl, rfl, hz⟩
    next => cases h

/-- No code of a table that meets R76 is the byte that resolve does not know. -/
theorem table_ne_of_fetchInstr_none {t : OpcodeTable} (ht : ∀ m : Mnemonic, m.admits (t m) = true) {s : State}
    (h : fetchInstr t s = none) (m : Mnemonic) : t m ≠ s.opcode := by
  intro hm
  have hnone := List.find?_eq_none.mp (Option.map_eq_none_iff.mp h) m m.mem_all
  rw [← hm, ht m] at hnone
  simp at hnone

/-- The record of the fault a cycle raises is true of the state the fault leaves (10_state.md R35, 60_exceptions.md R182). -/
theorem recordHolds_of_cycleFault {c : Config} (ht : ∀ m : Mnemonic, m.admits (c.table m) = true) {s : State} {kind : FaultKind}
    {info : Byte} (h : cycleFault c s = some (kind, info)) :
    RecordHolds c (faultedState s kind s.opcode info) ⟨kind, s.pc, s.opcode, info⟩ := by
  unfold cycleFault at h
  split at h
  next hf =>
    cases h
    exact ⟨rfl, rfl, fun _ => ⟨rfl, table_ne_of_fetchInstr_none ht hf⟩, nofun, nofun⟩
  next i hf =>
    obtain ⟨hop, hi⟩ := fetchInstr_some hf
    rcases handlerFault_cases h with ⟨rfl, hmem, hnone⟩ | ⟨rfl, rfl, hz⟩
    · rw [hi] at hmem
      exact ⟨rfl, rfl, nofun, nofun, fun _ => ⟨hnone, Mnemonic.mem_registerOperands_instr hmem⟩⟩
    · rw [hi] at hz
      obtain ⟨hm, hrb⟩ := Mnemonic.dividesByZero_instr hz
      refine ⟨rfl, rfl, nofun, fun _ => ⟨rfl, ?_, hrb⟩, nofun⟩
      exact hm.imp (fun hm => by rw [← hop, hm]) (fun hm => by rw [← hop, hm])

/-! ### The invariant -/

/-- At most one of the flags is true after an effect if it was so before. -/
theorem Effect.one_flag {c : Config} {i : Instr} {s t : State} (h : Effect c i s t) (hs : s.Inv c) :
    (t.fl.equal && t.fl.greater) = false ∧ (t.fl.equal && t.fl.less) = false ∧ (t.fl.greater && t.fl.less) = false := by
  rcases h.fl_cases with hfl | ⟨a, b, va, vb, -, hfl⟩
  · rw [hfl]; exact hs.one_flag
  · rw [hfl]
    rcases compareFlags_cases va vb with hc | hc | hc <;> simp [hc]

/-- A state that is not Faulted and meets the invariant has no record. -/
theorem State.Inv.fault_eq_none {c : Config} {s : State} (hs : s.Inv c) (h : s.status ≠ .faulted) : s.fault = none :=
  Option.not_isSome_iff_eq_none.mp (mt hs.record_iff.mp h)

/-- An effect from a running state keeps the invariant: the state is not Faulted and has no record. -/
theorem Effect.inv {c : Config} {i : Instr} {s t : State} (h : Effect c i s t) (hrun : s.status = .running) (hs : s.Inv c) :
    t.Inv c := by
  have hnone : t.fault = none := h.fault_eq.trans (hs.fault_eq_none (by rw [hrun]; decide))
  refine ⟨h.mem_wf hs.mem_wf, h.one_flag hs, ?_, ?_⟩
  · simp [hnone, h.status_ne_faulted hrun]
  · intro r hr
    rw [hnone] at hr
    cases hr

/-- The fault a cycle raises keeps the invariant: only status and the record change, and the record is true. -/
theorem faultedState_inv {c : Config} (ht : ∀ m : Mnemonic, m.admits (c.table m) = true) {s : State} (hs : s.Inv c)
    {kind : FaultKind} {info : Byte} (h : cycleFault c s = some (kind, info)) : (faultedState s kind s.opcode info).Inv c := by
  refine ⟨hs.mem_wf, hs.one_flag, iff_of_true rfl rfl, fun r hr => ?_⟩
  cases hr
  exact recordHolds_of_cycleFault ht h

/-- A step request to a machine that is not running changes nothing (40_cycle.md R100). -/
theorem stepUnder_of_not_running {c : Config} {s : State} (h : s.status ≠ .running) : stepUnder c s = s := by
  unfold stepUnder
  split
  next hrun => exact absurd hrun h
  next => rfl
  next => rfl

/-- A step keeps the invariant where every code has the shape R76 requires of it. -/
theorem stepUnder_inv {c : Config} (ht : ∀ m : Mnemonic, m.admits (c.table m) = true) {s : State} (hs : s.Inv c) :
    (stepUnder c s).Inv c := by
  by_cases hrun : s.status = .running
  · rcases stepUnder_running_cases (c := c) hrun with ⟨kind, info, hf, hstep⟩ | ⟨i, -, -, he⟩
    · rw [hstep]; exact faultedState_inv ht hs hf
    · exact he.inv hrun hs
  · rw [stepUnder_of_not_running hrun]; exact hs

/-- A byte with a mnemonic's operand count and its bit 4 has the shape its code must have (30_encoding.md R76). -/
theorem Mnemonic.admits_of_fields {m : Mnemonic} {op : Byte} (hcount : operandCount op = m.format.operands)
    (hbit : setsPC op = m.isJump) : m.admits op = true := by
  simp [Mnemonic.admits, hcount, hbit]

/-- Every code of the default table has its shape, whichever the two open codes are (30_encoding.md R77). -/
theorem admits_standard_table (m : Mnemonic) : m.admits (Config.standard.table m) = true := by
  cases m with
  | addi => exact Mnemonic.admits_of_fields (addiCode_fields _).1 (addiCode_fields _).2
  | subi => exact Mnemonic.admits_of_fields (subiCode_fields _ _).1 (subiCode_fields _ _).2
  | _ => decide

/-- Settles O45: a cycle has an effect, which keeps the invariant, or raises a fault, whose record is true. -/
theorem everyStepKeepsTheInvariant : Obligations.EveryStepKeepsTheInvariant := by
  refine ⟨fun s t hs h => ?_, fun c s hlegal hs => stepUnder_inv (fun m => hlegal.1 m m.mem_all) hs⟩
  rw [step_eq_stepUnder] at h
  cases h
  exact stepUnder_inv admits_standard_table hs

/-- The reset state has no record, and its memory is canonical. -/
theorem State.reset_inv (c : Config) : State.reset.Inv c :=
  ⟨State.reset_mem_wf, by decide, by decide, nofun⟩

/-- Settles O46, clause by clause of the invariant. -/
theorem resetMeetsTheInvariant : Obligations.ResetMeetsTheInvariant := State.reset_inv

end Sys2Proof.Machine
end

section
/-! PROOFS. Memory (spec 20_memory.md): the one byte a ST writes and the bytes every other effect leaves (R50, R51), a load after a
store (R59), and a store that the next cycle's fetch sees (R63). -/

namespace Sys2Proof.Machine

/-! ### LD and ST of registers -/

/-- Two operand bytes that stand for registers: the handler goes on with these registers, under either policy. -/
theorem withRegs_regByte (c : Config) (m : Mnemonic) (ra rb : Fin 8) (s : State) (k : Fin 8 → Fin 8 → State) :
    withRegs c m (regByte ra) (regByte rb) s k = k ra rb := by
  rw [withRegs, withReg_of_some (regOf_regByte c ra), withReg_of_some (regOf_regByte c rb)]

/-- LD of registers: one byte of memory to a register, then step 6 (41_control_data.md R113). -/
theorem exec_ld_regByte (ra rb : Fin 8) (s : State) :
    exec (.ld (regByte ra) (regByte rb)) s = .next
      ((s.setReg ra (s.memRead (s.getReg rb))).advance (Config.standard.table .ld) s.pc) := by
  rw [exec_eq_handle, handle, handleLd, withRegs_regByte, writeBack]

/-- ST of registers: one register to a byte of memory, then step 6 (41_control_data.md R114). -/
theorem exec_st_regByte (ra rb : Fin 8) (s : State) :
    exec (.st (regByte ra) (regByte rb)) s = .next
      ((s.memWrite (s.getReg ra) (s.getReg rb)).advance (Config.standard.table .st) s.pc) := by
  rw [exec_eq_handle, handle, handleSt, withRegs_regByte]

/-- Settles O21: the LD reads the state the ST left, at the address the ST wrote. -/
theorem loadAfterStoreGivesTheStoredByte : Obligations.LoadAfterStoreGivesTheStoredByte := by
  intro s t u ra rb rc rd hwf ht haddr hu
  rw [exec_st_regByte] at ht
  cases ht
  rw [exec_ld_regByte] at hu
  cases hu
  rw [State.getReg_advance, State.getReg_setReg, if_pos rfl, State.memRead_advance, State.memRead_memWrite hwf,
    State.getReg_advance, State.getReg_memWrite, if_pos haddr]

/-! ### The frame of memory -/

/-- A ST whose operands both name registers stores to the address in the first. -/
theorem storeAddress_st {c : Config} {a b : Byte} {ra rb : Fin 8} (ha : regOf c a = some ra) (hb : regOf c b = some rb)
    (s : State) : storeAddress c s (.st a b) = some (s.getReg ra) := by
  simp [storeAddress, ha, hb]

/-- An effect leaves every byte of memory but the one at the address it stores to (20_memory.md R50, R51). -/
theorem Effect.memRead_eq {c : Config} {i : Instr} {s t : State} (h : Effect c i s t) (hs : s.mem.wf) {e : Byte}
    (he : storeAddress c s i ≠ some e) : t.memRead e = s.memRead e := by
  cases h with
  | store a b ra rb namesA namesB =>
    have hne : e ≠ s.getReg ra := fun heq => he (heq ▸ storeAddress_st namesA namesB s)
    rw [State.memRead_advance, State.memRead_memWrite hs, if_neg hne]
  | nop | hlt | register | printDec | printChar | compare | jump => rfl

/-- Settles O37: a fault writes no memory, and an effect only the byte at the address it stores to. -/
theorem memoryChangesOnlyWhereStStores : Obligations.MemoryChangesOnlyWhereStStores := by
  intro i s t e hwf h he
  rcases exec_next_cases h with heff | ⟨kind, op, info, rfl⟩
  · exact heff.memRead_eq hwf he
  · rfl

/-! ### A store and the next fetch -/

/-- The three bytes at pc decide the instruction fetched: its code is the first, its operands the other two (40_cycle.md R91,
R93). -/
theorem fetchInstr_of_window {t : OpcodeTable} {s : State} {m : Mnemonic} {op op1 op2 : Byte} (hw : s.window = [op, op1, op2])
    (hm : resolve t op = some m) : fetchInstr t s = some (m.instr op1 op2) := by
  simp only [State.window, List.cons.injEq, and_true] at hw
  obtain ⟨hop, h1, h2⟩ := hw
  rw [fetchInstr, hop, h1, h2, hm, Option.map_some]

/-- A cycle of the standard machine executes the instruction it fetched. -/
theorem step_of_fetchInstr {s : State} {i : Instr} (hrun : s.status = .running)
    (hf : fetchInstr Config.standard.table s = some i) : step s = exec i s := by
  simp [step, hrun, hf]

/-- Settles O48: the cycle is that of the ST in the window before it, and each byte of the window after it is read from the memory
the ST left. -/
theorem storeIsSeenByTheNextFetch : Obligations.StoreIsSeenByTheNextFetch := by
  intro s ra rb hrun hwf hw
  have hfetch : fetchInstr Config.standard.table s = some (.st (regByte ra) (regByte rb)) :=
    fetchInstr_of_window hw (m := .st) (by decide)
  refine ⟨_, (step_of_fetchInstr hrun hfetch).trans (exec_st_regByte ra rb s), rfl, ?_⟩
  simp only [State.window, State.opcode, State.operand, State.memRead_advance, State.memRead_memWrite hwf, List.map]

end Sys2Proof.Machine
end

section
/-! PROOFS. Encoding (spec 30_encoding.md): the opcode byte's count (R72), resolve under a table that meets R76 (R78), decoding and
encoding as inverses of each other (R70, R74), and the default table for every legal choice of its open codes (R77). -/

namespace Sys2Proof

open Sys2Proof.Machine

/-! ### The opcode byte -/

/-- The operand count is the two high bits as a number (R72). -/
theorem operandCount_eq_div (op : Byte) : operandCount op = op.toNat / 64 := by
  rw [operandCount, BitVec.toNat_ushiftRight, Nat.shiftRight_eq_div_pow]

/-- No format has more than two operand bytes (R74). -/
theorem Format.operands_le_two (f : Format) : f.operands ≤ 2 := by
  cases f <;> decide

/-! ### resolve under a legal table -/

/-- A legal table gives no two mnemonics one code (R76). -/
theorem OpcodeTable.Legal.injective {t : OpcodeTable} (h : t.Legal) : Function.Injective t := fun m n hmn =>
  List.inj_on_of_nodup_map h.2 m.mem_all n.mem_all hmn

/-- Under a legal table resolve inverts the table: the shape it looks at first is one that every code has (R78). -/
theorem OpcodeTable.Legal.resolve_eq_some_iff {t : OpcodeTable} (h : t.Legal) {op : Byte} {m : Mnemonic} :
    resolve t op = some m ↔ t m = op := by
  refine ⟨resolve_code, ?_⟩
  rintro rfl
  have hfound : (resolve t (t m)).isSome :=
    List.find?_isSome.mpr ⟨m, m.mem_all, by simp [h.1 m m.mem_all]⟩
  obtain ⟨n, hn⟩ := Option.isSome_iff_exists.mp hfound
  rw [hn, h.injective (resolve_code hn)]

/-- Under a legal table a byte is unknown exactly when it is no mnemonic's code (R78). -/
theorem OpcodeTable.Legal.resolve_eq_none_iff {t : OpcodeTable} (h : t.Legal) {op : Byte} :
    resolve t op = none ↔ ∀ m, t m ≠ op := by
  simp only [Option.eq_none_iff_forall_ne_some, ne_eq, h.resolve_eq_some_iff]

/-- Settles O3: resolve inverts the table, and a cycle that finds the byte unknown fetches no instruction. -/
theorem resolveFindsTheMnemonicOfACode : Obligations.ResolveFindsTheMnemonicOfACode := by
  refine fun t op ht => ⟨fun m => ht.resolve_eq_some_iff, ht.resolve_eq_none_iff, ?_⟩
  rintro c s rfl hrun rfl hunknown
  rcases stepUnder_running (c := c) hrun with ⟨-, hstep⟩ | ⟨i, hfetch, -⟩
  · exact hstep
  · have hcode : c.table i.mnemonic = s.memRead s.pc := (fetchInstr_some hfetch).1
    exact absurd hcode (ht.resolve_eq_none_iff.mp hunknown _)

/-- Settles O4: a code of a legal table has its format's count, which is at most 2. -/
theorem countThreeIsUnknown : Obligations.CountThreeIsUnknown := by
  refine fun t op ht => ⟨operandCount_eq_div op, ht.count, ?_, fun hthree => ht.resolve_eq_none_iff.mpr ?_⟩
  · have hlt : op.toNat < 256 := op.isLt
    rw [operandCount_eq_div]
    omega
  · rintro m rfl
    have hle := m.format.operands_le_two
    rw [← ht.count m, hthree] at hle
    exact absurd hle (by decide)

/-! ### Instructions and their operand bytes -/

/-- An instruction has as many operand bytes as its format says (R74). -/
theorem Instr.length_operands (i : Instr) : i.operands.length = i.mnemonic.format.operands := by
  cases i <;> rfl

/-- The instruction made of a mnemonic belongs to its row. -/
@[simp] theorem Mnemonic.mnemonic_instr (m : Mnemonic) (op1 op2 : Byte) : (m.instr op1 op2).mnemonic = m := by
  cases m <;> rfl

/-- The instruction made of a mnemonic has the operand bytes given, as many as its format has (R74). -/
theorem Mnemonic.operands_instr (m : Mnemonic) (op1 op2 : Byte) :
    (m.instr op1 op2).operands = [op1, op2].take m.format.operands := by
  cases m <;> rfl

/-- An instruction is made again of its mnemonic and its operand bytes, whatever bytes follow. -/
theorem Instr.instr_operands (i : Instr) (rest : List Byte) :
    i.mnemonic.instr ((i.operands ++ rest).getD 0 0) ((i.operands ++ rest).getD 1 0) = i := by
  cases i <;> rfl

/-- The first two bytes as decode reads them are the bytes there, for as many as there are. -/
theorem take_getD_pair {n : Nat} {bytes : List Byte} (htwo : n ≤ 2) (hn : n ≤ bytes.length) :
    [bytes.getD 0 0, bytes.getD 1 0].take n = bytes.take n := by
  match n, bytes with
  | 0, _ => rfl
  | 1, _ :: _ => rfl
  | 2, _ :: _ :: _ => rfl

/-! ### Decoding and encoding -/

/-- Decoding answers exactly when the first byte is a code and the operand bytes of its format follow (R74, R78). -/
theorem decode_eq_ok_iff {t : OpcodeTable} {bytes rest : List Byte} {i : Instr} :
    decode t bytes = .ok (i, rest) ↔ ∃ op tail m, bytes = op :: tail ∧ resolve t op = some m ∧
      m.format.operands ≤ tail.length ∧ m.instr (tail.getD 0 0) (tail.getD 1 0) = i ∧
      tail.drop m.format.operands = rest := by
  cases bytes with
  | nil => simp [decode]
  | cons op tail =>
    cases hm : resolve t op with
    | none => simp [decode, hm]
    | some m =>
      by_cases hlen : tail.length < m.format.operands
      · simp [decode, hm, hlen]
      · simp [decode, hm, hlen, Nat.le_of_not_lt hlen]

/-- Settles O1: resolve finds the mnemonic of the code, and the bytes after it are the operands and then the rest. -/
theorem decodeGivesBackWhatEncodeWrites : Obligations.DecodeGivesBackWhatEncodeWrites := by
  refine fun t i rest ht => decode_eq_ok_iff.mpr
    ⟨t i.mnemonic, i.operands ++ rest, i.mnemonic, rfl, ht.resolve_eq_some_iff.mpr rfl, ?_, i.instr_operands rest, ?_⟩
  · rw [List.length_append, i.length_operands]
    exact Nat.le_add_right _ _
  · exact List.drop_left' i.length_operands

/-- Settles O2: the first byte is the code resolve found, and the bytes after it are the operands taken and the rest left. -/
theorem decodedBytesAreTheEncoding : Obligations.DecodedBytesAreTheEncoding := by
  intro t bytes rest i h
  obtain ⟨op, tail, m, rfl, hm, hlen, rfl, rfl⟩ := decode_eq_ok_iff.mp h
  rw [encode, Mnemonic.mnemonic_instr, Mnemonic.operands_instr, resolve_code hm,
    take_getD_pair m.format.operands_le_two hlen, List.cons_append, List.take_append_drop]

/-- Settles O7: each word by the default table's listed codes. -/
theorem writtenOutWordsDecode : Obligations.WrittenOutWordsDecode := by
  unfold Obligations.WrittenOutWordsDecode
  decide

/-! ### The default table and its open codes -/

/-- The codes R77 lists, in the order of `Mnemonic.all`; `map_defaultTableWith` ties them to the table. -/
def listedCodes : List Byte :=
  [0x00, 0x01, 0x82, 0x83, 0x84, 0x47, 0x48, 0xA0, 0x65, 0xA1, 0x66, 0xA2, 0xA3, 0xA4] ++
  [0xAC, 0xAD, 0xA8, 0xAA, 0xAB, 0x69, 0xA7, 0x54, 0x55, 0x56, 0x58, 0x59, 0x57, 0x5A]

/-- The default table has the listed codes, and the open codes last. -/
theorem map_defaultTableWith (a b : Byte) : Mnemonic.all.map (defaultTableWith a b) = listedCodes ++ [a, b] := rfl

/-- The open codes are the bytes of ADDI's and SUBI's shape that are not listed (R77). -/
theorem mem_openCodes_iff (op : Byte) : op ∈ openCodes ↔ Mnemonic.addi.admits op = true ∧ op ∉ listedCodes := by
  revert op
  decide

/-- Every code of the default table has the shape R76 requires exactly when the two open codes do. -/
theorem admits_defaultTableWith_iff (a b : Byte) :
    (∀ m ∈ Mnemonic.all, m.admits (defaultTableWith a b m) = true) ↔
      Mnemonic.addi.admits a = true ∧ Mnemonic.addi.admits b = true := by
  constructor
  · exact fun h => ⟨h .addi (Mnemonic.mem_all _), h .subi (Mnemonic.mem_all _)⟩
  · rintro ⟨ha, hb⟩ m -
    cases m with
    | addi => exact ha
    | subi => exact hb
    | _ => exact admits_standard_table _

/-- The codes of the default table are distinct exactly when the two open codes are, and neither is listed. -/
theorem nodup_defaultTableWith_iff (a b : Byte) :
    (Mnemonic.all.map (defaultTableWith a b)).Nodup ↔ a ∉ listedCodes ∧ b ∉ listedCodes ∧ a ≠ b := by
  have hlisted : listedCodes.Nodup := by decide
  rw [map_defaultTableWith, List.nodup_append_comm]
  simp only [List.cons_append, List.nil_append, List.nodup_cons, List.mem_cons, not_or, hlisted]
  tauto

/-- The default table is legal exactly when its open codes are two of the codes left for them (R77). -/
theorem legal_defaultTableWith_iff (a b : Byte) :
    (defaultTableWith a b).Legal ↔ a ∈ openCodes ∧ b ∈ openCodes ∧ a ≠ b := by
  rw [OpcodeTable.Legal, admits_defaultTableWith_iff, nodup_defaultTableWith_iff, mem_openCodes_iff, mem_openCodes_iff]
  tauto

/-- An index below the length ranges over the members of a list. -/
theorem exists_fin_getD_iff_mem {n : Nat} {l : List Byte} (hl : l.length = n) (a d : Byte) :
    (∃ i : Fin n, a = l.getD i d) ↔ a ∈ l := by
  subst hl
  rw [List.mem_iff_get]
  exact exists_congr fun i => by rw [List.getD_eq_getElem _ _ i.isLt, eq_comm]; rfl

/-- The index of ADDI ranges over the open codes. -/
theorem exists_eq_addiCode_iff (a : Byte) : (∃ i, a = addiCode i) ↔ a ∈ openCodes :=
  exists_fin_getD_iff_mem (l := openCodes) rfl a 0x80

/-- The index of SUBI ranges over the open codes that are not ADDI's. -/
theorem exists_eq_subiCode_iff (i : Fin 18) (b : Byte) : (∃ j, b = subiCode i j) ↔ b ≠ addiCode i ∧ b ∈ openCodes := by
  have hnodup : openCodes.Nodup := by decide
  have hi : i.val < openCodes.length := i.isLt
  have hlength : (openCodes.eraseIdx i.val).length = 17 := List.length_eraseIdx_of_lt hi
  have haddi : addiCode i = openCodes[i.val] := List.getD_eq_getElem _ _ hi
  rw [haddi, ← hnodup.mem_erase_iff, hnodup.erase_getElem]
  exact exists_fin_getD_iff_mem hlength b _

/-- Settles O6: a legal pair is two different open codes, and the two indices range over exactly these pairs. -/
theorem openCodesRangeOverEveryLegalChoice : Obligations.OpenCodesRangeOverEveryLegalChoice := by
  intro a b
  rw [legal_defaultTableWith_iff]
  constructor
  · rintro ⟨ha, hb, hne⟩
    obtain ⟨i, rfl⟩ := (exists_eq_addiCode_iff a).mpr ha
    obtain ⟨j, rfl⟩ := (exists_eq_subiCode_iff i b).mpr ⟨hne.symm, hb⟩
    exact ⟨i, j, rfl, rfl⟩
  · rintro ⟨i, j, rfl, rfl⟩
    obtain ⟨hne, hb⟩ := (exists_eq_subiCode_iff i _).mp ⟨j, rfl⟩
    exact ⟨(exists_eq_addiCode_iff _).mp ⟨i, rfl⟩, hb, hne.symm⟩

/-- The default table meets R76 whichever the open codes are. -/
theorem legal_defaultTable : defaultTable.Legal :=
  (openCodesRangeOverEveryLegalChoice _ _).mpr ⟨_, _, rfl, rfl⟩

/-- Settles O5: legality makes the open codes two different bytes of `openCodes`, and these all have the form 10?0????. -/
theorem defaultTableMeetsItsConstraints : Obligations.DefaultTableMeetsItsConstraints := by
  have hform : ∀ op ∈ openCodes, op &&& 0xD0 = 0x80 := by decide
  obtain ⟨haddi, hsubi, hne⟩ := (legal_defaultTableWith_iff opcAddi opcSubi).mp legal_defaultTable
  exact ⟨legal_defaultTable, hform _ haddi, hform _ hsubi, hne, map_defaultTableWith opcAddi opcSubi⟩

end Sys2Proof

namespace Sys2Proof.Machine

/-! ### Handlers under two tables -/

/-- Two machines agree on all that a handler reads of its configuration (R76): the registers operand bytes name, and what step 6
does with a code. -/
structure AgreeOnFields (c d : Config) : Prop where
  regOf_eq : regOf c = regOf d
  advance_eq : ∀ (m : Mnemonic) (s : State) (p : Byte), s.advance (c.table m) p = s.advance (d.table m) p

/-- Step 6 looks at two fields of the opcode, the count and bit 4 (40_cycle.md R97). -/
theorem State.advance_congr {op op' : Byte} (hcount : operandCount op = operandCount op') (hbit : setsPC op = setsPC op')
    (s : State) (p : Byte) : s.advance op p = s.advance op' p := by
  rw [State.advance, State.advance, hcount, hbit]

/-- Two legal tables that agree on bit 4 of HLT's code agree on every field of a code that step 6 reads (R76). -/
theorem agreeOnFields_of_legal {c d : Config} (hc : c.table.Legal) (hd : d.table.Legal)
    (hhlt : setsPC (c.table .hlt) = setsPC (d.table .hlt)) (hpolicy : c.regIndexPolicy = d.regIndexPolicy) :
    AgreeOnFields c d := by
  refine ⟨by funext b; rw [regOf, regOf, hpolicy], fun m => State.advance_congr ((hc.count m).trans (hd.count m).symm) ?_⟩
  by_cases hm : m = .hlt
  · rw [hm, hhlt]
  · rw [hc.bit4 hm, hd.bit4 hm]

/-- Two results of mnemonic `m` at state `s` are the same, or the same fault with each machine's own code in the record. -/
def SameButRecordedCode (c d : Config) (m : Mnemonic) (s t u : State) : Prop :=
  t = u ∨ ∃ kind info, t = faultedState s kind (c.table m) info ∧ u = faultedState s kind (d.table m) info

section
variable {c d : Config} (h : AgreeOnFields c d) {m : Mnemonic} {s : State}
include h

/-- A register operand names the same register on both machines, or raises BAD_REGISTER on both. -/
theorem AgreeOnFields.withReg {k l : Fin 8 → State} (hkl : ∀ r, SameButRecordedCode c d m s (k r) (l r)) (b : Byte) :
    SameButRecordedCode c d m s (withReg c m b s k) (withReg d m b s l) := by
  rcases withReg_cases c m b s k with ⟨r, hr, hk⟩ | ⟨hr, hk⟩
  · rw [hk, withReg_of_some (h.regOf_eq ▸ hr)]
    exact hkl r
  · rw [hk, withReg_of_none (h.regOf_eq ▸ hr)]
    exact .inr ⟨_, _, rfl, rfl⟩

/-- As `AgreeOnFields.withReg`, for two register operands. -/
theorem AgreeOnFields.withRegs {k l : Fin 8 → Fin 8 → State}
    (hkl : ∀ ra rb, SameButRecordedCode c d m s (k ra rb) (l ra rb)) (a b : Byte) :
    SameButRecordedCode c d m s (withRegs c m a b s k) (withRegs d m a b s l) :=
  h.withReg (fun ra => h.withReg (hkl ra) b) a

/-- DIV and MOD divide on both machines, or raise DIVIDE_BY_ZERO on both. -/
theorem AgreeOnFields.divisive (f : Byte → Byte → Byte) (a b : Byte) :
    SameButRecordedCode c d m s (divisive c m f a b s) (divisive d m f a b s) := by
  refine h.withRegs (fun ra rb => ?_) a b
  by_cases hzero : s.getReg rb = 0
  · rw [if_pos hzero, if_pos hzero]
    exact .inr ⟨_, _, rfl, rfl⟩
  · rw [if_neg hzero, if_neg hzero]
    exact .inl (h.advance_eq m _ _)

/-- A handler does the same on both machines, up to the code in the record of a fault. -/
theorem AgreeOnFields.handle (i : Instr) : SameButRecordedCode c d i.mnemonic s (handle c i s) (handle d i s) := by
  cases i with
  | nop => exact .inl (h.advance_eq .nop s s.pc)
  | hlt => exact .inl (congrArg State.halt (h.advance_eq .hlt s s.pc))
  | ldi r | addi r | subi r | prn r | pra r | inc r | dec r | not r =>
    exact h.withReg (fun _ => .inl (h.advance_eq _ _ _)) r
  | jmp r | jeq r | jne r | jlt r | jle r | jgt r | jge r => exact h.withReg (fun _ => .inl (h.advance_eq _ _ _)) r
  | ld a b | st a b | add a b | sub a b | mul a b | shl a b | shr a b | and a b | or a b | xor a b | cmp a b =>
    exact h.withRegs (fun _ _ => .inl (h.advance_eq _ _ _)) a b
  | div a b | mod a b => exact h.divisive _ a b

end

/-- Settles O44: two legal tables agree on all that a handler reads of its configuration but the code it records. -/
theorem handlersDependOnTheTableOnlyInTheRecord : Obligations.HandlersDependOnTheTableOnlyInTheRecord :=
  fun _ _ i _ hc hd hhlt hpolicy => (agreeOnFields_of_legal hc hd hhlt hpolicy).handle i

end Sys2Proof.Machine
end

section
/-! PROOFS. The cycle (spec 40_cycle.md): the instruction a step runs (R91 to R95), an unknown opcode (R94), the one thing a handler
writes beside pc (R95), pc after step 6 (R97), HLT (R98), the states no step leaves (R100), and two runs without end (R103). -/

namespace Sys2Proof.Machine

/-! ### The instruction a step runs -/

/-- A cycle runs the handler of the instruction fetched (40_cycle.md R95). -/
theorem stepUnder_of_fetchInstr {c : Config} {s : State} {i : Instr} (hrun : s.status = .running)
    (hf : fetchInstr c.table s = some i) : stepUnder c s = handle c i s := by
  simp [stepUnder, hrun, hf]

/-- Under a legal table a mnemonic's code at pc fetches its instruction, with the two bytes after it (40_cycle.md R91 to R94). -/
theorem fetchInstr_of_opcode {t : OpcodeTable} (ht : t.Legal) {s : State} {m : Mnemonic} (h : s.opcode = t m) :
    fetchInstr t s = some (m.instr (s.operand 1) (s.operand 2)) :=
  fetchInstr_of_window rfl (ht.resolve_eq_some_iff.mpr h.symm)

/-- A cycle of a legal machine with a mnemonic's code at pc runs that mnemonic's handler. -/
theorem stepUnder_of_opcode {c : Config} (hc : c.table.Legal) {s : State} {m : Mnemonic} (hrun : s.status = .running)
    (h : s.opcode = c.table m) : stepUnder c s = handle c (m.instr (s.operand 1) (s.operand 2)) s :=
  stepUnder_of_fetchInstr hrun (fetchInstr_of_opcode hc h)

/-- The standard machine's table meets R76. -/
theorem legal_standard_table : Config.standard.table.Legal := legal_defaultTable

/-- Settles O8: the bytes that decode are the window, so the instruction is the one fetched. -/
theorem stepRunsTheDecodedInstruction : Obligations.StepRunsTheDecodedInstruction := by
  intro s i rest hrun hdecode
  obtain ⟨op, tail, m, hbytes, hm, -, rfl, -⟩ := decode_eq_ok_iff.mp hdecode
  cases hbytes
  exact step_of_fetchInstr hrun (fetchInstr_of_window rfl hm)

/-- Settles O9: an instruction fetched would have the byte at pc as its code. -/
theorem unknownOpcodeFaults : Obligations.UnknownOpcodeFaults := by
  intro s hrun hunknown
  rcases stepUnder_running (c := Config.standard) hrun with ⟨-, hstep⟩ | ⟨i, hf, -⟩
  · rw [step_eq_stepUnder, hstep]
    rfl
  · exact absurd (fetchInstr_some hf).1 (hunknown i.mnemonic)

/-! ### What a handler writes -/

/-- Settles O39: a handler raises the first fault by priority, or has one effect, which writes one thing beside pc. -/
theorem handlerWritesAtMostOneThing : Obligations.HandlerWritesAtMostOneThing := by
  intro i s
  rw [exec_eq_handle]
  rcases handle_spec Config.standard i s with ⟨hf, he⟩ | ⟨kind, info, hf, ht⟩
  · rw [hf]
    generalize handle Config.standard i s = t at he
    refine ⟨t.pc, ?_⟩
    cases he with
    | nop | jump => exact .inl rfl
    | register b r v dest names => exact .inr (.inl ⟨b, r, v, dest, names, rfl⟩)
    | store a b ra rb namesA namesB =>
      exact .inr (.inr (.inl ⟨a, b, s.getReg ra, rb, rfl, storeAddress_st namesA namesB s, namesB, rfl⟩))
    | compare a b => exact .inr (.inr (.inr (.inl ⟨a, b, _, rfl, rfl⟩)))
    | printDec b r names => exact .inr (.inr (.inr (.inr (.inl ⟨b, r, _, names, .inl ⟨rfl, rfl⟩, rfl⟩))))
    | printChar b r names => exact .inr (.inr (.inr (.inr (.inl ⟨b, r, _, names, .inr ⟨rfl, rfl⟩, rfl⟩))))
    | hlt => exact .inr (.inr (.inr (.inr (.inr ⟨rfl, rfl⟩))))
  · rw [hf, ht]

/-! ### pc after a cycle -/

/-- An effect of an instruction whose code has bit 4 clear moves pc past it (40_cycle.md R97). -/
theorem Effect.pc_of_clear {c : Config} {i : Instr} {s t : State} (h : Effect c i s t)
    (hbit : setsPC (c.table i.mnemonic) = false) : t.pc = s.pc + BitVec.ofNat 8 (operandCount (c.table i.mnemonic) + 1) := by
  cases h with
  | nop | hlt | register | store | printDec | printChar | compare | jump =>
    exact congrArg State.pc (State.advance_of_clear hbit _ s.pc)

/-- No jump has a destination register (10_state.md R22). -/
theorem isJump_eq_false_of_destination {i : Instr} {b : Byte} (h : destination i = some b) : i.mnemonic.isJump = false := by
  cases i with
  | jmp | jeq | jne | jlt | jle | jgt | jge => cases h
  | _ => rfl

/-- The effect of a jump whose code has bit 4 set leaves pc at its register's value or past its operand (45_compare_jump.md R168). -/
theorem Effect.pc_of_jump {c : Config} {i : Instr} {s t : State} (h : Effect c i s t) (hi : i.mnemonic.isJump = true)
    (hbit : setsPC (c.table i.mnemonic) = true) :
    ∃ b r, i.operands = [b] ∧ regOf c b = some r ∧ (t.pc = s.getReg r ∨ t.pc = s.pc + 2) := by
  cases h with
  | jump b r p isJump operand names target =>
    rw [State.advance_of_set hbit]
    exact ⟨b, r, operand, names, target⟩
  | register b r v dest names => exact absurd hi (by simp [isJump_eq_false_of_destination dest])
  | nop | hlt | store | printDec | printChar | compare => cases hi

/-- Bit 4 of a code of the default table is set exactly for a jump, HLT's 0x01 included (30_encoding.md R77). -/
theorem setsPC_standard_table (m : Mnemonic) : setsPC (Config.standard.table m) = m.isJump := by
  by_cases hm : m = .hlt
  · rw [hm]
    rfl
  · exact legal_standard_table.bit4 hm

/-- Under the policy `fault` a byte that names a register is that register's number. -/
theorem eq_regByte_of_regOf {c : Config} (hc : c.regIndexPolicy = .fault) {b : Byte} {r : Fin 8} (h : regOf c b = some r) :
    b = regByte r := by
  have hb : b.toNat < 8 := by
    by_contra hge
    rw [(regOf_eq_none_iff hc b).mpr (Nat.le_of_not_lt hge)] at h
    cases h
  rw [regOf_of_lt c hb] at h
  cases h
  apply BitVec.eq_of_toNat_eq
  simp [regByte, Nat.mod_eq_of_lt hb]

/-- The one operand byte of a fetched instruction is the byte after its opcode (40_cycle.md R93). -/
theorem operand_of_fetchInstr {t : OpcodeTable} {s : State} {i : Instr} {b : Byte} (hf : fetchInstr t s = some i)
    (hi : i.operands = [b]) : s.operand 1 = b := by
  rw [(fetchInstr_some hf).2, Mnemonic.operands_instr] at hi
  cases hn : i.mnemonic.format.operands with
  | zero => simp [hn] at hi
  | succ n =>
    rw [hn, List.take_succ_cons] at hi
    exact (List.cons.inj hi).1

/-- Settles O12: a cycle that raised no fault had the effect of the instruction fetched, and bit 4 of its code says which pc. -/
theorem programCounterAfterACycle : Obligations.ProgramCounterAfterACycle := by
  intro s t hrun hstep hnofault
  rw [step_eq_stepUnder] at hstep
  cases hstep
  rcases stepUnder_running_cases (c := Config.standard) hrun with ⟨kind, info, -, hfault⟩ | ⟨i, hf, -, he⟩
  · exact absurd (by rw [hfault]; rfl) hnofault
  · have hcode : Config.standard.table i.mnemonic = s.memRead s.pc := (fetchInstr_some hf).1
    rw [← hcode]
    refine ⟨fun hclear => ?_, fun hset => ?_⟩
    · rw [he.pc_of_clear hclear, BitVec.toNat_add, BitVec.toNat_ofNat, Nat.add_mod_mod, Nat.add_assoc]
    · have hjump : i.mnemonic.isJump = true := (setsPC_standard_table _).symm.trans hset
      obtain ⟨b, r, hoperands, hr, hpc⟩ := he.pc_of_jump hjump hset
      refine ⟨⟨i.mnemonic, hjump, legal_standard_table.resolve_eq_some_iff.mpr rfl⟩, r, ?_, hpc⟩
      exact (operand_of_fetchInstr hf hoperands).trans (eq_regByte_of_regOf rfl hr)

/-! ### HLT -/

/-- A cycle that ends Halted fetched HLT (40_cycle.md R98). -/
theorem fetchInstr_of_halted {c : Config} {s : State} (hrun : s.status = .running) (h : (stepUnder c s).status = .halted) :
    fetchInstr c.table s = some .hlt := by
  rcases stepUnder_running_cases (c := c) hrun with ⟨kind, info, -, hfault⟩ | ⟨i, hf, -, he⟩
  · rw [hfault] at h
    cases h
  · rw [he.status_eq, hrun] at h
    split at h
    next hi => rw [hf, hi]
    next => cases h

/-- HLT's handler moves pc by bit 4 of HLT's own code (41_control_data.md R111). -/
theorem handle_hlt_pc {c : Config} (hc : c.table.Legal) (s : State) :
    (handle c .hlt s).pc = if setsPC (c.table .hlt) then s.pc else s.pc + 1 := by
  rw [handle, handleHlt, State.halt_pc, State.advance_pc, hc.count]
  rfl

/-- Settles O13: a cycle that ends Halted fetched HLT, and a cycle with HLT's code at pc runs HLT's handler. -/
theorem onlyHltHalts : Obligations.OnlyHltHalts := by
  intro c s hc hrun
  have hhlt : s.memRead s.pc = c.table .hlt → stepUnder c s = handle c .hlt s := stepUnder_of_opcode hc hrun
  refine ⟨⟨fun h => ?_, fun h => ?_⟩, fun h => ?_⟩
  · exact (fetchInstr_some (fetchInstr_of_halted hrun h)).1.symm
  · rw [hhlt h]
    rfl
  · rw [hhlt h, handle_hlt_pc hc]

/-! ### Runs that stay where they are -/

/-- A state that a step request does not change stays as it is, however many are made. -/
theorem runUnder_of_stepUnder_eq {c : Config} {s : State} (h : stepUnder c s = s) (k : Nat) : runUnder c k s = s := by
  induction k with
  | zero => rfl
  | succ k ih => rw [runUnder, h, ih]

/-- Settles O10: a step request to a machine that is not running changes nothing, and reset is one arm of the host's moves. -/
theorem terminalStatesNeverChange : Obligations.TerminalStatesNeverChange := by
  have hstays : ∀ (c : Config) (s : State) (k : Nat), s.status = .halted ∨ s.status = .faulted → runUnder c k s = s := by
    intro c s k h
    have hnot : s.status ≠ .running := by rcases h with h | h <;> simp [h]
    exact runUnder_of_stepUnder_eq (stepUnder_of_not_running hnot) k
  refine ⟨fun s k h => ?_, hstays, fun c z => ?_⟩
  · rw [core_run_eq_runUnder, hstays _ s k h]
  · cases z <;> rfl

/-- A jump to the address at which it stands changes nothing (45_compare_jump.md R161). -/
theorem handle_jmp_self {s : State} {r : Fin 8} (h : s.getReg r = s.pc) :
    handle Config.standard (.jmp (regByte r)) s = s := by
  rw [handle, handleJmp, jumpIf, withReg_of_some (regOf_regByte _ r), State.advance_of_set (by decide)]
  simp only [condAlways, if_true, h]
  rfl

/-- Settles O15: the cycle runs the jump, which leaves the state it was in. -/
theorem jumpToItselfRunsForever : Obligations.JumpToItselfRunsForever := by
  intro s r k hrun hop hoperand htarget
  have hstep : stepUnder Config.standard s = handle Config.standard (.jmp (s.operand 1)) s :=
    stepUnder_of_opcode legal_standard_table hrun (m := .jmp) hop
  rw [State.operand, hoperand, handle_jmp_self htarget] at hstep
  rw [core_run_eq_runUnder, runUnder_of_stepUnder_eq hstep]

/-! ### A run over zeros -/

/-- A cycle with the byte 0 at pc is NOP's: pc moves on by one, and nothing else changes (41_control_data.md R110). -/
theorem stepUnder_standard_of_zero {s : State} (hrun : s.status = .running) (h : s.memRead s.pc = 0) :
    stepUnder Config.standard s = s.setPc (s.pc + 1) := by
  have hstep : stepUnder Config.standard s = handle Config.standard .nop s :=
    stepUnder_of_opcode legal_standard_table hrun (m := .nop) h
  rw [hstep, handle, handleNop, State.advance_of_clear (by decide)]
  rfl

/-- `k` cycles over a memory of zeros move pc on by `k`: each leaves memory and status as they were for the next. -/
theorem runUnder_standard_of_zeros (k : Nat) {s : State} (hrun : s.status = .running) (h : ∀ a, s.memRead a = 0) :
    runUnder Config.standard k s = s.setPc (s.pc + BitVec.ofNat 8 k) := by
  induction k generalizing s with
  | zero => simp [runUnder, State.setPc]
  | succ k ih =>
    calc runUnder Config.standard (k + 1) s
        = runUnder Config.standard k (s.setPc (s.pc + 1)) := by rw [runUnder, stepUnder_standard_of_zero hrun (h s.pc)]
      _ = (s.setPc (s.pc + 1)).setPc (s.pc + 1 + BitVec.ofNat 8 k) := ih hrun h
      _ = s.setPc (s.pc + BitVec.ofNat 8 (k + 1)) := by
        rw [BitVec.add_assoc, Nat.add_comm k 1, BitVec.ofNat_add]
        rfl

/-- Settles O14: `k` cycles move pc on by `k`, modulo 256. -/
theorem zeroMemoryRunsForever : Obligations.ZeroMemoryRunsForever := by
  intro s k hrun h
  rw [core_run_eq_runUnder, runUnder_standard_of_zeros k hrun h, BitVec.ofNat_add, BitVec.ofNat_toNat, BitVec.setWidth_eq]
  rfl

end Sys2Proof.Machine
end

section
/-! PROOFS. Machine control and data movement (spec 41_control_data.md): the fault of a bad register operand (R184, R185), step 6 on the
standard machine (R97), and the rules of NOP (R110), HLT (R111), LDI (R112), LD (R113) and ST (R114). -/

namespace Sys2Proof.Machine

/-! ### A register operand that names no register -/

/-- A fault that applies to an instruction of the standard machine is the one its execution raises. -/
theorem exec_of_handlerFault {i : Instr} {s : State} {kind : FaultKind} {info : Byte}
    (h : handlerFault Config.standard s i = some (kind, info)) :
    exec i s = .next (faultedState s kind (Config.standard.table i.mnemonic) info) := by
  rw [exec_eq_handle]
  rcases handle_spec Config.standard i s with ⟨hnone, -⟩ | ⟨kind', info', hsome, ht⟩
  · rw [hnone] at h
    cases h
  · rw [hsome] at h
    cases h
    rw [ht]

/-- Op1 is checked first: where it is 8 or more, BAD_REGISTER is raised with it (60_exceptions.md R184, R185). -/
theorem exec_of_bad_op1 {i : Instr} {b : Byte} {rest : List Byte} (hi : i.registerOperands = b :: rest) (hb : 8 ≤ b.toNat)
    (s : State) : exec i s = .next (faultedState s .badRegister (Config.standard.table i.mnemonic) b) := by
  have hnone : regOf Config.standard b = none := (regOf_eq_none_iff rfl b).mpr hb
  exact exec_of_handlerFault (by simp [handlerFault, hi, hnone])

/-- Op2 is checked after op1: where op1 names a register and op2 is 8 or more, BAD_REGISTER is raised with op2. -/
theorem exec_of_bad_op2 {i : Instr} {a b : Byte} (hi : i.registerOperands = [a, b]) (ha : a.toNat < 8) (hb : 8 ≤ b.toNat)
    (s : State) : exec i s = .next (faultedState s .badRegister (Config.standard.table i.mnemonic) b) := by
  have hsome := regOf_of_lt Config.standard ha
  have hnone : regOf Config.standard b = none := (regOf_eq_none_iff rfl b).mpr hb
  exact exec_of_handlerFault (by simp [handlerFault, hi, hsome, hnone])

/-- Every instruction with two register operands faults as `TwoRegisterFaults` says. -/
theorem twoRegisterFaults_of_registerOperands {op : Byte} {i : Byte → Byte → Instr}
    (hcode : ∀ a b, Config.standard.table (i a b).mnemonic = op) (hi : ∀ a b, (i a b).registerOperands = [a, b]) :
    TwoRegisterFaults op i := by
  refine ⟨fun s a b ha => ?_, fun s a b ha hb => ?_⟩
  · rw [exec_of_bad_op1 (hi a b) ha, hcode]
  · rw [exec_of_bad_op2 (hi a b) ha hb, hcode]

/-! ### Step 6 on the standard machine -/

/-- After an instruction that is no jump, pc is past its opcode and operands (40_cycle.md R97). -/
theorem State.advance_standard_table {m : Mnemonic} (hm : m.isJump = false) (s : State) (p : Byte) :
    s.advance (Config.standard.table m) p = s.setPc (p + BitVec.ofNat 8 (m.format.operands + 1)) := by
  rw [State.advance_of_clear ((setsPC_standard_table m).trans hm), legal_standard_table.count, State.setPc]

/-! ### NOP and HLT -/

/-- Settles O16: NOP is step 6 alone. -/
theorem nopOnlyAdvances : Obligations.NopOnlyAdvances := by
  refine ⟨rfl, fun s => ?_⟩
  rw [exec_eq_handle, handle, handleNop, State.advance_standard_table rfl]
  rfl

/-- The sets-PC bit is bit 4 of the opcode (30_encoding.md R73). -/
theorem setsPC_eq_getLsbD (op : Byte) : setsPC op = op.getLsbD 4 := by
  have hand : op &&& 0x10#8 = if op.getLsbD 4 then BitVec.twoPow 8 4 else 0#8 := BitVec.and_twoPow op 4
  rw [setsPC, hand]
  cases op.getLsbD 4 <;> rfl

/-- HLT's handler under a legal table: status is Halted, pc moves by bit 4 of HLT's own code, and nothing else changes. -/
theorem handle_hlt {c : Config} (hc : c.table.Legal) (s : State) :
    handle c .hlt s = { s with status := .halted, pc := if setsPC (c.table .hlt) then s.pc else s.pc + 1 } := by
  rw [← handle_hlt_pc hc s]
  rfl

/-- Settles O17: under the default table bit 4 of HLT's code is clear. -/
theorem hltHaltsAfterTheAdvance : Obligations.HltHaltsAfterTheAdvance := by
  refine ⟨rfl, fun s => ?_, fun c s hc => ?_⟩
  · rw [exec_eq_handle, handle_hlt legal_standard_table, setsPC_standard_table]
    rfl
  · rw [handle_hlt hc, setsPC_eq_getLsbD]

/-! ### LDI, LD and ST -/

/-- LDI of a register: the immediate to the register, then step 6. -/
theorem exec_ldi_regByte (r : Fin 8) (v : Byte) (s : State) :
    exec (.ldi (regByte r) v) s = .next ((s.setReg r v).advance (Config.standard.table .ldi) s.pc) := by
  rw [exec_eq_handle, handle, handleLdi, withReg_of_some (regOf_regByte _ r), writeBack]

/-- Settles O18: the register write and step 6 are the whole effect. -/
theorem ldiLoadsTheImmediate : Obligations.LdiLoadsTheImmediate := by
  refine ⟨fun _ _ => rfl, fun s r v => ?_, fun s b v hb => exec_of_bad_op1 rfl hb s⟩
  rw [exec_ldi_regByte, State.advance_standard_table rfl]
  rfl

/-- Settles O19: the byte is read in the state before the write. -/
theorem ldLoadsTheAddressedByte : Obligations.LdLoadsTheAddressedByte := by
  refine ⟨fun _ _ => rfl, fun s ra rb => ?_, twoRegisterFaults_of_registerOperands (fun _ _ => rfl) fun _ _ => rfl⟩
  rw [exec_ld_regByte, State.advance_standard_table rfl]
  rfl

/-- Settles O20: the stored byte by the read of a byte after a write, every other byte by the frame of memory (O37). -/
theorem stStoresOneByte : Obligations.StStoresOneByte := by
  refine ⟨fun _ _ => rfl, fun s ra rb hwf => ?_, twoRegisterFaults_of_registerOperands (fun _ _ => rfl) fun _ _ => rfl⟩
  have haddr := storeAddress_st (regOf_regByte Config.standard ra) (regOf_regByte Config.standard rb) s
  have hexec := exec_st_regByte ra rb s
  refine ⟨haddr, _, hexec, ?_, fun e he => memoryChangesOnlyWhereStStores _ _ _ _ hwf hexec he, ?_⟩
  · rw [State.memRead_advance, State.memRead_memWrite hwf, if_pos rfl]
  · rw [State.advance_standard_table rfl]
    rfl

end Sys2Proof.Machine
end

section
/-! PROOFS. Output (spec 42_io.md): the one event that PRN (R120) and PRA (R121) append, and the text an event stands for (R122). -/

namespace Sys2Proof.Machine

/-! ### PRN and PRA -/

/-- An output handler of the standard machine, given a register: one event at the end of the channel, and pc past the one operand. -/
theorem output_standard_regByte {m : Mnemonic} (hjump : m.isJump = false) (hlen : m.format.operands = 1) (event : Byte → OutEvent)
    (r : Fin 8) (s : State) : output Config.standard m event (regByte r) s = (s.emit (event (s.getReg r))).setPc (s.pc + 2) := by
  rw [output, withReg_of_some (regOf_regByte _ r), State.advance_standard_table hjump, hlen]
  rfl

/-- Settles O22: both handlers are the output shape, each with its own event. -/
theorem printingAppendsOneEvent : Obligations.PrintingAppendsOneEvent := by
  refine ⟨⟨fun _ => rfl, fun s r => ?prn, fun s b hb => exec_of_bad_op1 rfl hb s⟩,
    ⟨fun _ => rfl, fun s r => ?pra, fun s b hb => exec_of_bad_op1 rfl hb s⟩⟩
  case prn =>
    rw [exec_eq_handle, handle, handlePrn, output_standard_regByte rfl rfl]
    rfl
  case pra =>
    rw [exec_eq_handle, handle, handlePra, output_standard_regByte rfl rfl]
    rfl

/-! ### The decimal digits of a number -/

/-- The decimal digits of a number, the most significant first; 0 has the one digit 0. -/
def decimalDigits (n : Nat) : List (Fin 10) :=
  if n < 10 then [Fin.ofNat 10 n] else decimalDigits (n / 10) ++ [Fin.ofNat 10 n]

/-- The character of a digit stands that many places after '0'. -/
theorem digitChar_eq_ofNat (d : Fin 10) : Nat.digitChar d.val = Char.ofNat ('0'.toNat + d.val) := by
  revert d
  decide

/-- The text of `dec v` shows the decimal digits of `v`. -/
theorem OutEvent.text_dec (v : Byte) :
    (OutEvent.dec v).text = (decimalDigits v.toNat).map fun d => Char.ofNat ('0'.toNat + d.val) := by
  simp only [OutEvent.text, ← digitChar_eq_ofNat]
  fun_induction decimalDigits v.toNat with
  | case1 n h => simp [Nat.toDigits_of_lt_base h, Nat.mod_eq_of_lt h]
  | case2 n h ih => simp [Nat.toDigits_of_base_le (by decide) (Nat.le_of_not_lt h), ih]

/-- The decimal digits of a number recompose to it. -/
theorem foldl_decimalDigits (n : Nat) : (decimalDigits n).foldl (fun k d => 10 * k + d.val) 0 = n := by
  fun_induction decimalDigits n with
  | case1 n h => simp [Nat.mod_eq_of_lt h]
  | case2 n h ih => simp [ih, Nat.div_add_mod]

theorem decimalDigits_ne_nil (n : Nat) : decimalDigits n ≠ [] := by
  fun_cases decimalDigits n <;> simp

/-- Only 0 starts with the digit 0: the first digit of a number of 10 or more is that of its tenth part, which is not 0. -/
theorem eq_zero_of_head?_decimalDigits {n : Nat} (h : (decimalDigits n).head? = some 0) : n = 0 := by
  fun_induction decimalDigits n with
  | case1 n hn => simpa [Fin.ext_iff, Nat.mod_eq_of_lt hn] using h
  | case2 n hn ih =>
    rw [List.head?_append_of_ne_nil _ (decimalDigits_ne_nil _)] at h
    have := ih h
    omega

/-! ### The text of an event -/

/-- Every byte is a code point (42_io.md R121). -/
theorem toNat_ofNat_byte (v : Byte) : (Char.ofNat v.toNat).toNat = v.toNat := by
  have hvalid : v.toNat.isValidChar := .inl (by omega)
  rw [Char.toNat_ofNat, if_pos hvalid]

/-- Settles O23: the digits are `decimalDigits`, the character is that of the byte's code point. -/
theorem eventTextIsDecimalOrCharacter : Obligations.EventTextIsDecimalOrCharacter := by
  intro v
  refine ⟨⟨decimalDigits v.toNat, OutEvent.text_dec v, foldl_decimalDigits _, decimalDigits_ne_nil _, fun h => ?_⟩,
    ⟨Char.ofNat v.toNat, rfl, toNat_ofNat_byte v⟩⟩
  rw [eq_zero_of_head?_decimalDigits h, decimalDigits]
  rfl

end Sys2Proof.Machine
end

section
/-! PROOFS. Arithmetic (spec 43_arith.md): the handler shapes that write one register back, given registers, with the number they leave
in it (R139), and the rules of ADD, SUB and MUL (R130, R133, R136), ADDI and SUBI (R131, R134), INC and DEC (R132, R135), DIV and MOD
(R137, R138, R139). -/

namespace Sys2Proof.Machine

/-! ### Handlers that write one register -/

/-- A register write and step 6 on the standard machine leave in the register the number whose residue modulo 256 is the byte
written, and pc past the instruction. -/
theorem writeBack_standard {m : Mnemonic} (hjump : m.isJump = false) {v : Byte} {n : Nat} (hv : v.toNat = n % 256) (r : Fin 8)
    (s : State) : writeBack Config.standard m r v s = registerSet s r n (BitVec.ofNat 8 (m.format.operands + 1)) := by
  have hbyte : v = BitVec.ofNat 8 (n % 256) := by rw [← hv, BitVec.ofNat_toNat, BitVec.setWidth_eq]
  rw [writeBack, State.advance_standard_table hjump, hbyte]
  rfl

/-- The rule of an instruction whose handler is `unary`: the register holds `number` of its value, modulo 256. -/
theorem oneRegisterRule_of_unary {op : Byte} {i : Byte → Instr} (m : Mnemonic) {f : Byte → Byte} (number : Byte → Nat)
    (hcode : ∀ b, Config.standard.table (i b).mnemonic = op) (hops : ∀ b, (i b).registerOperands = [b])
    (hjump : m.isJump = false) (hlen : m.format.operands = 1)
    (hexec : ∀ b s, exec (i b) s = .next (unary Config.standard m f b s)) (hf : ∀ v, (f v).toNat = number v % 256) :
    OneRegisterRule op i fun s r => registerSet s r (number (s.getReg r)) 2 := by
  refine ⟨hcode, fun s r => ?_, fun s b hb => ?_⟩
  · rw [hexec, unary, withReg_of_some (regOf_regByte _ r), writeBack_standard hjump (hf _), hlen]
    rfl
  · rw [exec_of_bad_op1 (hops b) hb, hcode]

/-- The rule of an instruction whose handler is `binaryImm`: the register holds `number` of its value and the immediate, modulo
256. -/
theorem registerImmediateRule_of_binaryImm {op : Byte} {i : Byte → Byte → Instr} (m : Mnemonic) {f : Byte → Byte → Byte}
    (number : Byte → Byte → Nat) (hcode : ∀ b v, Config.standard.table (i b v).mnemonic = op)
    (hops : ∀ b v, (i b v).registerOperands = [b]) (hjump : m.isJump = false) (hlen : m.format.operands = 2)
    (hexec : ∀ b v s, exec (i b v) s = .next (binaryImm Config.standard m f b v s))
    (hf : ∀ w v, (f w v).toNat = number w v % 256) :
    RegisterImmediateRule op i fun s r v => registerSet s r (number (s.getReg r) v) 3 := by
  refine ⟨hcode, fun s r v => ?_, fun s b v hb => ?_⟩
  · rw [hexec, binaryImm, withReg_of_some (regOf_regByte _ r), writeBack_standard hjump (hf _ _), hlen]
    rfl
  · rw [exec_of_bad_op1 (hops b v) hb, hcode]

/-- The rule of an instruction whose handler is `binary`: register A holds `number` of the two registers' values, modulo 256. -/
theorem twoRegisterRule_of_binary {op : Byte} {i : Byte → Byte → Instr} (m : Mnemonic) {f : Byte → Byte → Byte}
    (number : Byte → Byte → Nat) (hcode : ∀ a b, Config.standard.table (i a b).mnemonic = op)
    (hops : ∀ a b, (i a b).registerOperands = [a, b]) (hjump : m.isJump = false) (hlen : m.format.operands = 2)
    (hexec : ∀ a b s, exec (i a b) s = .next (binary Config.standard m f a b s))
    (hf : ∀ va vb, (f va vb).toNat = number va vb % 256) :
    TwoRegisterRule op i fun s ra rb => registerSet s ra (number (s.getReg ra) (s.getReg rb)) 3 := by
  refine ⟨hcode, fun s ra rb => ?_, twoRegisterFaults_of_registerOperands hcode hops⟩
  rw [hexec, binary, withRegs_regByte, writeBack_standard hjump (hf _ _), hlen]
  rfl

/-! ### ADD, SUB, MUL; ADDI, SUBI; INC, DEC -/

/-- The difference of two bytes as exact numbers, modulo 256 (43_arith.md R133, R139). -/
def difference (v w : Byte) : Nat := (((v.toNat : Int) - w.toNat) % 256).toNat

/-- The byte type's difference is that of the exact numbers. -/
theorem toNat_sub_eq_difference (v w : Byte) : (v - w).toNat = difference v w % 256 := by
  rw [BitVec.toNat_sub, difference]
  omega

/-- Settles O24: the three handlers are `binary`, over the byte type's sum, difference and product. -/
theorem addSubMulWrapModulo256 : Obligations.AddSubMulWrapModulo256 := by
  refine ⟨?add, ?sub, ?mul⟩
  case add =>
    exact twoRegisterRule_of_binary .add (fun va vb => va.toNat + vb.toNat) (fun _ _ => rfl) (fun _ _ => rfl) rfl rfl
      (fun _ _ _ => rfl) BitVec.toNat_add
  case sub =>
    exact twoRegisterRule_of_binary .sub difference (fun _ _ => rfl) (fun _ _ => rfl) rfl rfl
      (fun _ _ _ => rfl) toNat_sub_eq_difference
  case mul =>
    exact twoRegisterRule_of_binary .mul (fun va vb => va.toNat * vb.toNat) (fun _ _ => rfl) (fun _ _ => rfl) rfl rfl
      (fun _ _ _ => rfl) BitVec.toNat_mul

/-- Settles O25: the two handlers are `binaryImm`; the open codes stand in the rules by name. -/
theorem addiSubiWrapModulo256 : Obligations.AddiSubiWrapModulo256 := by
  refine ⟨?addi, ?subi⟩
  case addi =>
    exact registerImmediateRule_of_binaryImm .addi (fun w v => w.toNat + v.toNat) (fun _ _ => rfl) (fun _ _ => rfl) rfl rfl
      (fun _ _ _ => rfl) BitVec.toNat_add
  case subi =>
    exact registerImmediateRule_of_binaryImm .subi difference (fun _ _ => rfl) (fun _ _ => rfl) rfl rfl
      (fun _ _ _ => rfl) toNat_sub_eq_difference

/-- Settles O26: the two handlers are `unary`, the sum and the difference with 1. -/
theorem incDecWrapModulo256 : Obligations.IncDecWrapModulo256 := by
  refine ⟨?inc, ?dec⟩
  case inc =>
    exact oneRegisterRule_of_unary .inc (fun v => v.toNat + 1) (fun _ => rfl) (fun _ => rfl) rfl rfl (fun _ _ => rfl)
      fun v => BitVec.toNat_add v 1
  case dec =>
    exact oneRegisterRule_of_unary .dec (fun v => difference v 1) (fun _ => rfl) (fun _ => rfl) rfl rfl (fun _ _ => rfl)
      fun v => toNat_sub_eq_difference v 1

/-! ### DIV and MOD -/

/-- `divisive` of registers, the divisor not 0: register A holds `n`, where the byte computed has the value `n`. -/
theorem divisive_of_ne_zero {m : Mnemonic} (hjump : m.isJump = false) (hlen : m.format.operands = 2) {f : Byte → Byte → Byte}
    {s : State} {ra rb : Fin 8} (hb : s.getReg rb ≠ 0) {n : Nat} (hf : (f (s.getReg ra) (s.getReg rb)).toNat = n) :
    divisive Config.standard m f (regByte ra) (regByte rb) s = registerSet s ra n 3 := by
  have hmod : (f (s.getReg ra) (s.getReg rb)).toNat = n % 256 := by rw [← hf, Nat.mod_eq_of_lt (BitVec.isLt _)]
  rw [divisive, withRegs_regByte, if_neg hb, writeBack_standard hjump hmod, hlen]
  rfl

/-- `divisive` of registers, the divisor 0: DIVIDE_BY_ZERO, with info 0 (60_exceptions.md R183). -/
theorem divisive_of_eq_zero (c : Config) (m : Mnemonic) (f : Byte → Byte → Byte) {s : State} (ra : Fin 8) {rb : Fin 8}
    (hb : s.getReg rb = 0) :
    divisive c m f (regByte ra) (regByte rb) s = faultedState s .divideByZero (c.table m) 0 := by
  rw [divisive, withRegs_regByte, if_pos hb]
  rfl

/-- DIV of registers, the divisor not 0: the quotient to register A (43_arith.md R137). -/
theorem exec_div_of_ne_zero {s : State} (ra : Fin 8) {rb : Fin 8} (hb : s.getReg rb ≠ 0) :
    exec (.div (regByte ra) (regByte rb)) s = .next (registerSet s ra ((s.getReg ra).toNat / (s.getReg rb).toNat) 3) := by
  rw [exec_eq_handle, handle, handleDiv, divisive_of_ne_zero rfl rfl hb BitVec.toNat_udiv]

/-- MOD of registers, the divisor not 0: the remainder to register A (43_arith.md R138). -/
theorem exec_mod_of_ne_zero {s : State} (ra : Fin 8) {rb : Fin 8} (hb : s.getReg rb ≠ 0) :
    exec (.mod (regByte ra) (regByte rb)) s = .next (registerSet s ra ((s.getReg ra).toNat % (s.getReg rb).toNat) 3) := by
  rw [exec_eq_handle, handle, handleMod, divisive_of_ne_zero rfl rfl hb BitVec.toNat_umod]

/-- Settles O27: both handlers are `divisive`, which checks the divisor after both operands. -/
theorem divModDivideOrFault : Obligations.DivModDivideOrFault := by
  refine ⟨fun _ _ => ⟨rfl, rfl⟩, fun s ra rb hb => ⟨exec_div_of_ne_zero ra hb, exec_mod_of_ne_zero ra hb⟩,
    fun s ra rb hb => ⟨?div, ?mod⟩,
    twoRegisterFaults_of_registerOperands (fun _ _ => rfl) fun _ _ => rfl,
    twoRegisterFaults_of_registerOperands (fun _ _ => rfl) fun _ _ => rfl⟩
  case div =>
    rw [exec_eq_handle, handle, handleDiv, divisive_of_eq_zero _ _ _ ra hb]
    rfl
  case mod =>
    rw [exec_eq_handle, handle, handleMod, divisive_of_eq_zero _ _ _ ra hb]
    rfl

/-- The register that `registerSet` wrote holds its number, where that is a byte's. -/
theorem toNat_getReg_registerSet (s : State) (r : Fin 8) {n : Nat} (hn : n < 256) (length : Byte) :
    ((registerSet s r n length).getReg r).toNat = n := by
  simp [registerSet, State.getReg, Nat.mod_eq_of_lt hn]

/-- Settles O28: the division law of the naturals, on the numbers that DIV and MOD leave in register A. -/
theorem quotientAndRemainderRecompose : Obligations.QuotientAndRemainderRecompose := by
  intro s t u ra rb hb ht hu
  rw [exec_div_of_ne_zero ra hb] at ht
  cases ht
  rw [exec_mod_of_ne_zero ra hb] at hu
  cases hu
  have hdividend : (s.getReg ra).toNat < 256 := (s.getReg ra).isLt
  have hdivisor : 0 < (s.getReg rb).toNat := Nat.pos_of_ne_zero fun h => hb (BitVec.eq_of_toNat_eq h)
  rw [toNat_getReg_registerSet _ _ ((Nat.div_le_self _ _).trans_lt hdividend),
    toNat_getReg_registerSet _ _ ((Nat.mod_le _ _).trans_lt hdividend)]
  exact ⟨Nat.div_add_mod' _ _, Nat.mod_lt _ hdivisor⟩

end Sys2Proof.Machine
end

section
/-! PROOFS. Shifts and bitwise logic (spec 44_logic_shift.md): the value of each byte operation as an exact number, and the rules of
SHL and SHR (R150, R151), AND, OR, XOR and NOT (R152 to R155). -/

namespace Sys2Proof.Machine

/-- A byte's value is its own residue: what the handler shapes ask of an operation that cannot leave the byte range. -/
theorem toNat_eq_mod_of_toNat_eq {v : Byte} {n : Nat} (h : v.toNat = n) : v.toNat = n % 256 := by
  rw [← h, Nat.mod_eq_of_lt v.isLt]

/-! ### Shifts -/

/-- The shift left is the product with the power of 2, modulo 256, whatever the amount (44_logic_shift.md R150). -/
theorem toNat_shiftLeft_eq_mul_pow (v : Byte) (n : Nat) : (v <<< n).toNat = v.toNat * 2 ^ n % 256 := by
  rw [BitVec.toNat_shiftLeft, Nat.shiftLeft_eq]

/-- The shift right is the quotient by the power of 2, whatever the amount (44_logic_shift.md R151). -/
theorem toNat_shiftRight_eq_div_pow (v : Byte) (n : Nat) : (v >>> n).toNat = v.toNat / 2 ^ n := by
  rw [BitVec.toNat_ushiftRight, Nat.shiftRight_eq_div_pow]

/-- Settles O29: the two handlers are `binary`, over the byte type's shifts by the whole value of register B. -/
theorem shiftsUseTheWholeAmount : Obligations.ShiftsUseTheWholeAmount := by
  refine ⟨?shl, ?shr⟩
  case shl =>
    exact twoRegisterRule_of_binary .shl (fun va vb => va.toNat * 2 ^ vb.toNat) (fun _ _ => rfl) (fun _ _ => rfl) rfl rfl
      (fun _ _ _ => rfl) fun va vb => toNat_shiftLeft_eq_mul_pow va vb.toNat
  case shr =>
    exact twoRegisterRule_of_binary .shr (fun va vb => va.toNat / 2 ^ vb.toNat) (fun _ _ => rfl) (fun _ _ => rfl) rfl rfl
      (fun _ _ _ => rfl) fun va vb => toNat_eq_mod_of_toNat_eq (toNat_shiftRight_eq_div_pow va vb.toNat)

/-! ### AND, OR, XOR, NOT -/

/-- Settles O30: AND, OR and XOR are `binary`, NOT is `unary`; none of the four leaves the byte range, so no residue is taken. -/
theorem logicWorksBitByBit : Obligations.LogicWorksBitByBit := by
  refine ⟨?and, ?or, ?xor, ?not⟩
  case and =>
    exact twoRegisterRule_of_binary .and (fun va vb => va.toNat &&& vb.toNat) (fun _ _ => rfl) (fun _ _ => rfl) rfl rfl
      (fun _ _ _ => rfl) fun va vb => toNat_eq_mod_of_toNat_eq (BitVec.toNat_and va vb)
  case or =>
    exact twoRegisterRule_of_binary .or (fun va vb => va.toNat ||| vb.toNat) (fun _ _ => rfl) (fun _ _ => rfl) rfl rfl
      (fun _ _ _ => rfl) fun va vb => toNat_eq_mod_of_toNat_eq (BitVec.toNat_or va vb)
  case xor =>
    exact twoRegisterRule_of_binary .xor (fun va vb => va.toNat ^^^ vb.toNat) (fun _ _ => rfl) (fun _ _ => rfl) rfl rfl
      (fun _ _ _ => rfl) fun va vb => toNat_eq_mod_of_toNat_eq (BitVec.toNat_xor va vb)
  case not =>
    exact oneRegisterRule_of_unary .not (fun v => 255 - v.toNat) (fun _ => rfl) (fun _ => rfl) rfl rfl (fun _ _ => rfl)
      fun _ => toNat_eq_mod_of_toNat_eq BitVec.toNat_not

end Sys2Proof.Machine
end

section
/-! PROOFS. Compare and jumps (spec 45_compare_jump.md): CMP's flags as the unsigned order (R160), the jump handler of the standard
machine given a register (R168), and the rules of JMP (R161) and of the six conditional jumps (R162 to R167). -/

namespace Sys2Proof.Machine

/-! ### CMP -/

/-- CMP's flags as a chain of cases: L where the first value is the smaller, G where the second is, else E. -/
theorem compareFlags_eq_ite (va vb : Byte) :
    compareFlags va vb = if va.toNat < vb.toNat then ⟨false, false, true⟩
      else if vb.toNat < va.toNat then ⟨false, true, false⟩ else ⟨true, false, false⟩ := by
  unfold compareFlags
  rcases lt_trichotomy va.toNat vb.toNat with h | h | h
  · simp [h, h.ne, h.le]
  · simp [h]
  · simp [h, h.ne', h.not_gt]

/-- Settles O31: the flags written are those of the unsigned order, and step 6 moves pc past the two operands. -/
theorem cmpSetsExactlyOneFlag : Obligations.CmpSetsExactlyOneFlag := by
  refine ⟨fun _ _ => rfl, fun s ra rb => ?_, twoRegisterFaults_of_registerOperands (fun _ _ => rfl) fun _ _ => rfl⟩
  rw [exec_cmp_regByte, State.advance_standard_table rfl, compareFlags_eq_ite]
  rfl

/-! ### Jumps -/

/-- A jump handler of the standard machine, given a register: step 6 leaves the pc it set, the register's value where the condition
holds and the address after the one operand where it does not. -/
theorem jumpIf_standard_regByte {m : Mnemonic} (hjump : m.isJump = true) (cond : Flags → Bool) (r : Fin 8) (s : State) :
    jumpIf Config.standard m cond (regByte r) s = s.setPc (if cond s.fl then s.getReg r else s.pc + 2) := by
  rw [jumpIf, withReg_of_some (regOf_regByte _ r), State.advance_of_set ((setsPC_standard_table m).trans hjump)]

/-- Settles O32: JMP's condition always holds. -/
theorem jmpGoesToTheRegister : Obligations.JmpGoesToTheRegister := by
  refine ⟨fun _ => rfl, fun s r => ?_, fun s b hb => exec_of_bad_op1 rfl hb s⟩
  rw [exec_eq_handle, handle, handleJmp, jumpIf_standard_regByte rfl]
  rfl

/-- The rule of an instruction whose handler is `jumpIf`, with its condition stated as a proposition over the flags. -/
theorem conditionalJumpRule_of_jumpIf {op : Byte} {i : Byte → Instr} (m : Mnemonic) (cond : Flags → Bool)
    {holds : Flags → Prop} (hcode : ∀ b, Config.standard.table (i b).mnemonic = op) (hops : ∀ b, (i b).registerOperands = [b])
    (hjump : m.isJump = true) (hexec : ∀ b s, exec (i b) s = .next (jumpIf Config.standard m cond b s))
    (hcond : ∀ f, cond f = true ↔ holds f) : ConditionalJumpRule op i holds := by
  refine ⟨hcode, fun s r htaken => ?_, fun s r hmissed => ?_, fun s b hb => ?_⟩
  · rw [hexec, jumpIf_standard_regByte hjump, if_pos ((hcond _).mpr htaken), State.setPc]
  · rw [hexec, jumpIf_standard_regByte hjump, if_neg (mt (hcond _).mp hmissed), State.setPc]
  · rw [exec_of_bad_op1 (hops b) hb, hcode]

/-- Settles O33: the six handlers are `jumpIf`, each with its own condition. -/
theorem conditionalJumpsFollowTheFlags : Obligations.ConditionalJumpsFollowTheFlags := by
  refine ⟨?jeq, ?jne, ?jlt, ?jle, ?jgt, ?jge⟩
  case jeq =>
    exact conditionalJumpRule_of_jumpIf .jeq condEqual (fun _ => rfl) (fun _ => rfl) rfl (fun _ _ => rfl) fun _ => Iff.rfl
  case jne =>
    exact conditionalJumpRule_of_jumpIf .jne condNotEqual (fun _ => rfl) (fun _ => rfl) rfl (fun _ _ => rfl)
      fun f => by rw [condNotEqual, Bool.not_eq_true']
  case jlt =>
    exact conditionalJumpRule_of_jumpIf .jlt condLess (fun _ => rfl) (fun _ => rfl) rfl (fun _ _ => rfl) fun _ => Iff.rfl
  case jle =>
    exact conditionalJumpRule_of_jumpIf .jle condLessOrEqual (fun _ => rfl) (fun _ => rfl) rfl (fun _ _ => rfl)
      fun f => by rw [condLessOrEqual, Bool.or_eq_true]
  case jgt =>
    exact conditionalJumpRule_of_jumpIf .jgt condGreater (fun _ => rfl) (fun _ => rfl) rfl (fun _ _ => rfl) fun _ => Iff.rfl
  case jge =>
    exact conditionalJumpRule_of_jumpIf .jge condGreaterOrEqual (fun _ => rfl) (fun _ => rfl) rfl (fun _ _ => rfl)
      fun f => by rw [condGreaterOrEqual, Bool.or_eq_true]

end Sys2Proof.Machine
end

section
/-! PROOFS. Exceptions (spec 60_exceptions.md) and the host's session: the first fault by priority (R185) and what it writes (R182),
BAD_REGISTER under both policies (R184), the trace port (R193), the host's one load and a refused one (R194), and the invariant of
the session (70_reset_and_hazards.md R201 to R208). -/

namespace Sys2Proof.Machine

/-! ### The fault of a cycle -/

/-- Settles O40: a cycle raises the first fault by priority, or has an effect, which writes no record and does not make the state
Faulted. -/
theorem firstFaultByPriority : Obligations.FirstFaultByPriority := by
  intro s hrun
  rw [step_eq_stepUnder]
  rcases stepUnder_running_cases (c := Config.standard) hrun with ⟨kind, info, hf, ht⟩ | ⟨i, -, hf, he⟩
  · rw [hf, ht]
    rfl
  · rw [hf]
    exact ⟨_, rfl, he.status_ne_faulted hrun, he.fault_eq⟩

/-- Settles O41: a cycle that ends Faulted had no effect of an instruction, so it raised a fault. -/
theorem faultsArePrecise : Obligations.FaultsArePrecise := by
  intro s t hrun hstep hfaulted
  rw [step_eq_stepUnder] at hstep
  cases hstep
  rcases stepUnder_running_cases (c := Config.standard) hrun with ⟨kind, info, -, ht⟩ | ⟨i, -, -, he⟩
  · exact ⟨kind, info, ht⟩
  · exact absurd hfaulted (he.status_ne_faulted hrun)

/-! ### BAD_REGISTER and the policy -/

/-- On every machine a fault that applies to an instruction is the one its handler raises. -/
theorem handle_of_handlerFault {c : Config} {i : Instr} {s : State} {kind : FaultKind} {info : Byte}
    (h : handlerFault c s i = some (kind, info)) : handle c i s = faultedState s kind (c.table i.mnemonic) info := by
  rcases handle_spec c i s with ⟨hnone, -⟩ | ⟨kind', info', hsome, ht⟩
  · rw [hnone] at h
    cases h
  · rw [hsome] at h
    cases h
    exact ht

/-- Under the policy `fault` the first register operand of 8 or more is the fault that applies. -/
theorem handlerFault_of_find {c : Config} (hc : c.regIndexPolicy = .fault) {i : Instr} {b : Byte}
    (h : (i.registerOperands.find? fun b => decide (8 ≤ b.toNat)) = some b) (s : State) :
    handlerFault c s i = some (.badRegister, b) := by
  have hpred : (fun b => (regOf c b).isNone) = fun b : Byte => decide (8 ≤ b.toNat) := by
    funext b
    rw [Bool.eq_iff_iff, Option.isNone_iff_eq_none, regOf_eq_none_iff hc, decide_eq_true_iff]
  rw [handlerFault, hpred, h]

/-- Every register operand names a register where the instruction is well formed or the policy is `low3`. -/
theorem regOf_ne_none_of_wellFormed_or_low3 {c : Config} {i : Instr} (h : i.wellFormed = true ∨ c.regIndexPolicy = .low3)
    {b : Byte} (hb : b ∈ i.registerOperands) : regOf c b ≠ none := by
  rcases h with hwf | hlow
  · have hlt : b.toNat < 8 := of_decide_eq_true (List.all_eq_true.mp hwf b hb)
    simp [regOf_of_lt c hlt]
  · simp [regOf_low3 hlow]

/-- Settles O42: BAD_REGISTER comes from a register operand that names none, and an effect leaves the record as it was. -/
theorem badRegisterDependsOnThePolicy : Obligations.BadRegisterDependsOnThePolicy := by
  refine ⟨fun c i s b hc hb => handle_of_handlerFault (handlerFault_of_find hc hb s), fun c i s r hnames hr hkind => ?_⟩
  rcases handle_spec c i s with ⟨-, he⟩ | ⟨kind, info, hf, ht⟩
  · exact he.fault_eq.symm.trans hr
  · rw [ht] at hr
    cases hr
    rcases handlerFault_cases hf with ⟨-, hmem, hnone⟩ | ⟨hdiv, -, -⟩
    · exact absurd hnone (regOf_ne_none_of_wellFormed_or_low3 hnames hmem)
    · rw [hdiv] at hkind
      cases hkind

/-! ### The trace port -/

/-- The flags byte shows E, G and L in bits 0, 1 and 2, and no other bit is set (10_state.md R32). -/
theorem Flags.byte_bits (f : Flags) :
    f.byte.getLsbD 0 = f.equal ∧ f.byte.getLsbD 1 = f.greater ∧ f.byte.getLsbD 2 = f.less ∧ f.byte.toNat < 8 := by
  obtain ⟨e, g, l⟩ := f
  revert e g l
  decide

/-- An address past another, as its number modulo 256. -/
theorem ofNat_toNat_add_mod (p : Byte) (k : Nat) : BitVec.ofNat 8 ((p.toNat + k) % 256) = p + BitVec.ofNat 8 k := by
  apply BitVec.eq_of_toNat_eq
  simp [BitVec.toNat_add]

/-- Settles O53: the flags byte bit by bit, and each of the three bytes at its wrapped address. -/
theorem traceShowsTheStatedValues : Obligations.TraceShowsTheStatedValues := by
  intro s
  refine ⟨rfl, rfl, s.fl.byte_bits, ?_⟩
  simp only [List.map, ofNat_toNat_add_mod]
  simp [State.trace]

/-! ### What a move of the host does -/

/-- What an admitted move does to the session (70_reset_and_hazards.md R201, R202, R205, R208). In which sessions a step, or a stop
that ends the run, is admitted is left to `Session.move`. -/
inductive MoveEffect (c : Config) : HostMove → Session → Session → Prop
  | reset {z} : MoveEffect c .reset z (.fresh State.reset)
  | load {s} (bytes : List Byte) (fits : bytes.length ≤ 256) :
      MoveEffect c (.load bytes) (.fresh s) (.loaded { s with mem := s.mem.writeBytes 0 bytes })
  | loadRefused {s} (bytes : List Byte) (tooLong : 256 < bytes.length) :
      MoveEffect c (.load bytes) (.fresh s) (.loadRefused (refusedLoad bytes s))
  | programMissing {s} : MoveEffect c .programMissing (.fresh s) (.notStarted s)
  | step {z} : MoveEffect c .step z (.started (stepUnder c z.state))
  | stop {z} : MoveEffect c .stop z (.stopped z.state)
  | stopAfterRefusal {s} : MoveEffect c .stop (.loadRefused s) (.loadRefused s)
  | stopUnstarted {s} : MoveEffect c .stop (.notStarted s) (.notStarted s)

/-- Everything a move can do, by the move and then by where the host is. -/
theorem moveEffect_of_move {c : Config} {m : HostMove} {z z' : Session} (h : Session.move c m z = some z') :
    MoveEffect c m z z' := by
  cases m with
  | reset => cases h; exact .reset
  | load bytes =>
    cases z with
    | fresh s =>
      rcases Nat.lt_or_ge 256 bytes.length with hlen | hlen
      · simp only [Session.move, load_of_lt hlen] at h
        cases h
        exact .loadRefused bytes hlen
      · simp only [Session.move, load_of_le hlen] at h
        cases h
        exact .load bytes hlen
    | loaded | started | stopped | loadRefused | notStarted => cases h
  | programMissing =>
    cases z with
    | fresh => cases h; exact .programMissing
    | loaded | started | stopped | loadRefused | notStarted => cases h
  | step =>
    cases z with
    | fresh | loaded | started => cases h; exact .step
    | stopped | loadRefused | notStarted => cases h
  | stop =>
    cases z with
    | fresh | loaded | started | stopped => cases h; exact .stop
    | loadRefused => cases h; exact .stopAfterRefusal
    | notStarted => cases h; exact .stopUnstarted

/-- What every admitted move keeps holds of every session the moves lead to. -/
theorem Session.moves_induction {c : Config} {P : Session → Prop}
    (hmove : ∀ m z z', P z → Session.move c m z = some z' → P z') {ms : List HostMove} {z z' : Session} (hz : P z)
    (h : Session.moves c ms z = some z') : P z' := by
  induction ms generalizing z with
  | nil => cases h; exact hz
  | cons m rest ih =>
    simp only [Session.moves] at h
    split at h
    next z₁ hm => exact ih (hmove m z z₁ hz hm) h
    next => cases h

/-! ### The invariant of the session -/

/-- Only memory of the reset state has changed: the invariant holds where memory is canonical. -/
theorem State.reset_with_mem_inv (c : Config) {m : Memory} (hm : m.wf) : ({ State.reset with mem := m } : State).Inv c :=
  ⟨hm, (State.reset_inv c).one_flag, (State.reset_inv c).record_iff, nofun⟩

/-- The invariant of a session whose cycles have begun or whose run was stopped is that of its state. -/
theorem Session.inv_of_state_inv {c : Config} {s : State} (hs : s.Inv c) :
    (Session.started s).Inv c ∧ (Session.stopped s).Inv c := by
  refine ⟨⟨hs, ?_, ?_⟩, ⟨hs, ?_, ?_⟩⟩ <;> rintro t (ht | ht) <;> cases ht

/-- The session at the reset state meets the invariant, as does the one whose program file was missing. -/
theorem Session.inv_reset (c : Config) : (Session.fresh State.reset).Inv c ∧ (Session.notStarted State.reset).Inv c := by
  refine ⟨⟨State.reset_inv c, ?_, ?_⟩, ⟨State.reset_inv c, ?_, ?_⟩⟩ <;> rintro t (ht | ht) <;> cases ht <;> rfl

/-- A load of the reset state, admitted or refused, gives the invariant where it leaves memory canonical. -/
theorem Session.inv_of_only_memory (c : Config) {m : Memory} (hm : m.wf) :
    (Session.loaded { State.reset with mem := m }).Inv c ∧ (Session.loadRefused { State.reset with mem := m }).Inv c := by
  have hs := State.reset_with_mem_inv c hm
  refine ⟨⟨hs, ?_, ?_⟩, ⟨hs, ?_, ?_⟩⟩ <;> rintro t (ht | ht) <;> cases ht <;> rfl

/-- Every admitted move keeps the invariant: a load starts from the reset state, and a cycle keeps the invariant of states. -/
theorem MoveEffect.inv {c : Config} (hc : c.table.Legal) {m : HostMove} {z z' : Session} (h : MoveEffect c m z z')
    (hz : z.Inv c) : z'.Inv c := by
  cases h with
  | reset => exact (Session.inv_reset c).1
  | load bytes fits =>
    obtain rfl := hz.untouched _ (.inl rfl)
    exact (Session.inv_of_only_memory c (Memory.writeBytes_wf State.reset_mem_wf 0 bytes)).1
  | loadRefused bytes tooLong =>
    obtain rfl := hz.untouched _ (.inl rfl)
    exact (Session.inv_of_only_memory c (refusedLoad_mem_wf bytes State.reset)).2
  | programMissing =>
    obtain rfl := hz.untouched _ (.inl rfl)
    exact (Session.inv_reset c).2
  | step => exact (Session.inv_of_state_inv (stepUnder_inv (fun m => hc.1 m m.mem_all) hz.state_inv)).1
  | stop => exact (Session.inv_of_state_inv hz.state_inv).2
  | stopAfterRefusal | stopUnstarted => exact hz

/-- Settles O52: every move keeps the invariant, the reset session meets it, and so does every session the moves lead to. -/
theorem everySessionKeepsTheInvariant : Obligations.EverySessionKeepsTheInvariant := by
  have hmove : ∀ (c : Config) (m : HostMove) (z z' : Session), c.table.Legal → z.Inv c → Session.move c m z = some z' →
      z'.Inv c :=
    fun c m z z' hc hz h => (moveEffect_of_move h).inv hc hz
  exact ⟨hmove, fun c => (Session.inv_reset c).1, fun c ms z hc h =>
    Session.moves_induction (fun m z z' => hmove c m z z' hc) (Session.inv_reset c).1 h⟩

/-! ### The host's one load -/

/-- A session in which nothing is loaded and no cycle has run is at the reset state, under any table. -/
def Session.FreshIsReset (z : Session) : Prop := ∀ s, z = .fresh s → s = State.reset

/-- The session after reset is one at the reset state. -/
theorem Session.freshIsReset_reset : (Session.fresh State.reset).FreshIsReset := fun _ hs => (Session.fresh.inj hs).symm

/-- Of the moves only a reset leads to a fresh session. -/
theorem MoveEffect.freshIsReset {c : Config} {m : HostMove} {z z' : Session} (h : MoveEffect c m z z') : z'.FreshIsReset := by
  cases h with
  | reset => exact Session.freshIsReset_reset
  | load | loadRefused | programMissing | step | stop | stopAfterRefusal | stopUnstarted => exact nofun

/-- After a refused load every move but reset is refused or changes nothing (70_reset_and_hazards.md R202, R208). -/
theorem Session.move_loadRefused (c : Config) (t : State) {m : HostMove} (hm : m ≠ .reset) :
    Session.move c m (.loadRefused t) = none ∨ Session.move c m (.loadRefused t) = some (.loadRefused t) := by
  cases m with
  | reset => exact absurd rfl hm
  | load | programMissing | step => exact .inl rfl
  | stop => exact .inr rfl

/-- Settles O51: a load is admitted in a fresh session only, which is at the reset state, and its length decides what it does. -/
theorem hostLoadsOnceBeforeTheFirstCycle : Obligations.HostLoadsOnceBeforeTheFirstCycle := by
  intro c ms bytes z z' hz hload
  have hfresh : z.FreshIsReset :=
    Session.moves_induction (fun m z z' _ h => (moveEffect_of_move h).freshIsReset) Session.freshIsReset_reset hz
  cases moveEffect_of_move hload with
  | load _ fits =>
    obtain rfl := hfresh _ rfl
    exact ⟨rfl, fun _ => ⟨_, load_of_le fits _, rfl⟩, fun tooLong => absurd fits (by omega)⟩
  | loadRefused _ tooLong =>
    obtain rfl := hfresh _ rfl
    exact ⟨rfl, fun fits => absurd fits (by omega), fun _ =>
      ⟨⟨_, rfl, rfl⟩, rfl, rfl, fun m hm => Session.move_loadRefused c _ hm⟩⟩

end Sys2Proof.Machine
end

section
/-! PROOFS. Loading, the text format and the ports (spec 70_reset_and_hazards.md): a load of bytes (R201, R202), comments and white
space in a line of program text (R204), and what the ports show of the state and of a cycle (R207; 10_state.md R34, R35). -/

namespace Sys2Proof.Machine

/-! ### A load -/

/-- Settles O50: the bytes are written from address 0 on, and at most 256 of them do not pass address 255. -/
theorem loadWritesExactlyItsBytes : Obligations.LoadWritesExactlyItsBytes := by
  intro s bytes hwf
  refine ⟨fun hlen => ?_, fun hlen => load_of_lt hlen s⟩
  refine ⟨_, load_of_le hlen s, Memory.writeBytes_wf hwf 0 bytes, rfl, fun a => ?_⟩
  have hfits : (0 : Byte).toNat + bytes.length ≤ 256 := by simpa using hlen
  simpa [State.memRead] using Memory.read_writeBytes hwf hfits a

/-! ### A line of program text -/

/-- A line's literal decides what the line gives (R204). -/
theorem parseLine_congr {line line' : List Char} (h : literalOf line = literalOf line') (w : WideLiteral) (base : Nat) :
    parseLine w base line = parseLine w base line' := by
  unfold parseLine
  rw [h]

/-- Before a comment begins, each part of a line gives its own part of the literal. -/
theorem literalOf_append {before : List Char} (h : '#' ∉ before) (rest : List Char) :
    literalOf (before ++ rest) = literalOf before ++ literalOf rest := by
  have hall : ∀ ch ∈ before, (ch != '#') = true := fun ch hch => bne_iff_ne.mpr fun heq => h (heq ▸ hch)
  rw [literalOf, List.takeWhile_append_of_pos hall, List.filter_append, literalOf, List.takeWhile_eq_self_iff.mpr hall,
    literalOf]

/-- White space is no part of a literal. -/
theorem literalOf_whitespace_cons {space : Char} (h : space.isWhitespace = true) (after : List Char) :
    literalOf (space :: after) = literalOf after := by
  have hne : (space != '#') = true := bne_iff_ne.mpr fun heq => absurd (heq ▸ h) (by decide)
  rw [literalOf, List.takeWhile_cons_of_pos (p := fun ch => ch != '#') hne, List.filter_cons_of_neg (by simp [h]), literalOf]

/-- A comment gives nothing. -/
theorem literalOf_comment (comment : List Char) : literalOf ('#' :: comment) = [] := rfl

/-- Settles O55: neither white space nor a comment is part of the line's literal. -/
theorem commentsAndSpacesDoNotCount : Obligations.CommentsAndSpacesDoNotCount := by
  intro w base before after comment space hbefore hspace
  refine ⟨parseLine_congr ?_ w base, parseLine_congr ?_ w base⟩
  · rw [literalOf_append hbefore, literalOf_append hbefore, literalOf_whitespace_cons hspace]
  · rw [literalOf_append hbefore, literalOf_comment, List.append_nil]

/-! ### The output event of a cycle -/

/-- A cycle leaves the output channel as it was or appends one event to it (10_state.md R36). -/
theorem stepUnder_out_cases (c : Config) (s : State) :
    (stepUnder c s).out = s.out ∨ ∃ e, (stepUnder c s).out = s.out ++ [e] := by
  by_cases hrun : s.status = .running
  · rcases stepUnder_running_cases (c := c) hrun with ⟨kind, info, -, hfault⟩ | ⟨i, -, -, he⟩
    · exact .inl (by rw [hfault]; rfl)
    · rcases he.out_cases with hout | ⟨b, r, -, -, hout⟩ | ⟨b, r, -, -, hout⟩
      · exact .inl hout
      · exact .inr ⟨_, hout⟩
      · exact .inr ⟨_, hout⟩
  · exact .inl (by rw [stepUnder_of_not_running hrun])

/-- No event is shown where the output channel is as it was. -/
theorem outEvent_eq_none {s t : State} (h : t.out = s.out) : outEvent s t = none := by
  simp [outEvent, h]

/-- The event shown is the one appended. -/
theorem outEvent_eq_some {s t : State} {e : OutEvent} (h : t.out = s.out ++ [e]) : outEvent s t = some e := by
  simp [outEvent, h]

/-! ### The status and fault ports -/

/-- Every kind of fault has a number other than that of no fault (10_state.md R35). -/
theorem FaultKind.code_ne_zero (k : FaultKind) : k.code ≠ 0 := by
  cases k <;> decide

/-- The ports of a state with a fault record. -/
theorem State.ports_of_fault {s : State} {r : FaultRecord} (h : s.fault = some r) :
    s.ports = ⟨s.status.code, r.kind.code, r.pc, r.opcode, r.info⟩ := by
  rw [State.ports, h]

/-- The ports of a state without one: kind and info are 0, the other two free values (log entry 12). -/
theorem State.ports_of_no_fault {s : State} (h : s.fault = none) :
    s.ports = ⟨s.status.code, 0, Config.idleFaultPc s, Config.idleFaultOpcode s, 0⟩ := by
  rw [State.ports, h]

/-- The status port shows status, whether or not there is a record. -/
theorem State.ports_status (s : State) : s.ports.status = s.status.code := by
  cases h : s.fault with
  | none => rw [State.ports_of_no_fault h]
  | some r => rw [State.ports_of_fault h]

/-- The fault kind port shows a fault exactly where there is a record. -/
theorem State.ports_faultKind_ne_zero_iff (s : State) : s.ports.faultKind ≠ 0 ↔ s.fault.isSome = true := by
  cases h : s.fault with
  | none => simp [State.ports_of_no_fault h]
  | some r =>
    rw [State.ports_of_fault h]
    exact iff_of_true r.kind.code_ne_zero rfl

/-- Settles O54: the record decides the fault ports, the invariant ties it to status, and a cycle appends at most one event. -/
theorem portsShowStatusFaultAndEvent : Obligations.PortsShowStatusFaultAndEvent := by
  intro c s hs
  refine ⟨?status, s.ports_faultKind_ne_zero_iff.trans hs.record_iff, fun r hr => ?record, fun hnone => ?none, ?event⟩
  case status =>
    rw [State.ports_status]
    rfl
  case record =>
    rw [State.ports_of_fault hr]
    exact ⟨rfl, rfl, rfl, rfl⟩
  case none =>
    rw [State.ports_of_no_fault hnone]
    exact ⟨rfl, rfl⟩
  case event =>
    rcases stepUnder_out_cases c s with hout | ⟨e, hout⟩
    · rw [outEvent_eq_none hout]
      exact hout
    · rw [outEvent_eq_some hout]
      exact hout

end Sys2Proof.Machine
end
